-- ==== Sys2Proof/Word.lean ====
section
/-! DEFINITION. The widths of the block's values (R11) and the record of one access of the CPU collaborator (R18). -/

namespace Sys2Proof

/-- `u8` of rule R11: a byte on the data bus (DATA_BITS, R8). -/
abbrev Byte := BitVec 8

/-- `u16` of rule R11: a bus address (ADDR_BITS, R8). -/
abbrev Addr := BitVec 16

/-- `u64` of rule R11: a cumulative cycle count (R25) or a deadline (R26). -/
abbrev Cycle := BitVec 64

/-- The direction of a bus access (R80): R, W, or F for an instruction fetch. -/
inductive Dir where
  | read
  | write
  | fetch
  deriving DecidableEq, Repr, Inhabited

/-- One bus access `(dir, addr, value_if_write, now)` of the CPU collaborator (R18). -/
structure BusAccess where
  dir  : Dir
  addr : Addr
  data : Byte
  now  : Cycle
  deriving DecidableEq, Repr, Inhabited

/-- What one `executeOneInstruction()` of the CPU collaborator does to the block (R18, R274): its accesses in order and
the cycle count after it. That the counts never go down (R18, R25) is kept by the machine, `Machine.State.atCount`. -/
structure CpuInstr where
  accesses : List BusAccess
  cycles   : Cycle
  deriving DecidableEq, Repr, Inhabited

end Sys2Proof
end

