-- ==== Sys2Proof/Config.lean ====
section
/-! DEFINITION. The constants the source fixes (R8), the record of the open parameters (R9, R10), and the free values:
constants without a body, which no proof can look into. -/

namespace Sys2Proof.Config

/-! ## Constants of rule R8 -/

/-- ADDR_BITS (R8): the width of `Addr`. -/
abbrev addrBits : Nat := 16
/-- DATA_BITS (R8): the width of `Byte`. -/
abbrev dataBits : Nat := 8
/-- FDC_PORTS (R8). -/
abbrev fdcPorts : Nat := 5
/-- PIA_PORTS (R8). -/
abbrev piaPorts : Nat := 4
/-- RAM_LO (R8). -/
abbrev ramLo : Nat := 0x0000
/-- RAM_HI (R8). -/
abbrev ramHi : Nat := 0x9FFF
/-- ROM_LO (R8). -/
abbrev romLo : Nat := 0xA000
/-- ROM_HI (R8). -/
abbrev romHi : Nat := 0xFFFF
/-- OP_READ_DATA (R8). -/
abbrev opReadData : BitVec 6 := 0x13#6
/-- OP_SEEK (R8). -/
abbrev opSeek : BitVec 6 := 0x29#6
/-- OP_READ_DRIVE_STATUS (R8). -/
abbrev opReadDriveStatus : BitVec 6 := 0x2C#6
/-- OP_SPECIFY (R8). -/
abbrev opSpecify : BitVec 6 := 0x35#6
/-- OP_WRITE_SPECIAL (R8). -/
abbrev opWriteSpecial : BitVec 6 := 0x3A#6
/-- SPECIAL_DRIVE_CTRL (R8): the special register whose bit 6 starts the drive countdown. -/
abbrev specialDriveCtrl : Byte := 0x23#8
/-- TRACK_BYTES (R8). -/
abbrev trackBytes : Nat := 2560
/-- SECTOR_BYTES (R8). -/
abbrev sectorBytes : Nat := 256
/-- SECTORS_PER_TRACK (R8). -/
abbrev sectorsPerTrack : Nat := 10
/-- TRACKS (R8). The controller checks no track against it (R155). -/
abbrev tracks : Nat := 40
/-- BYTE_LATENCY (R8), in cycles. -/
abbrev byteLatency : Nat := 400
/-- DRIVE_SPINUP (R8, R186), in ticks. -/
abbrev driveSpinup : Nat := 200
/-- KEY_COUNT (R8). -/
abbrev keyCount : Nat := 61
/-- MATRIX_ROWS (R8). -/
abbrev matrixRows : Nat := 6
/-- MATRIX_COLS (R8). -/
abbrev matrixCols : Nat := 10
/-- CPU_HZ (R8). -/
abbrev cpuHz : Nat := 1000000
/-- FIELD_NUM (R8). -/
abbrev fieldNum : Nat := 70
/-- FIELD_DEN (R8). -/
abbrev fieldDen : Nat := 262
/-- FRAME_RATE (R8). -/
abbrev frameRate : Nat := 60
/-- RASTER_W (R8). -/
abbrev rasterW : Nat := 256
/-- RASTER_H (R8). -/
abbrev rasterH : Nat := 192
/-- TEXT_COLS (R8). -/
abbrev textCols : Nat := 32
/-- TEXT_ROWS (R8). -/
abbrev textRows : Nat := 16
/-- CELL_W (R8). -/
abbrev cellW : Nat := 8
/-- CELL_H (R8). -/
abbrev cellH : Nat := 12
/-- The most bytes a raster reads, from VIDEO_BASE upward (R10, R257). -/
abbrev rasterBytes : Nat := 6144
/-- PACE_EVERY (R8). -/
abbrev paceEvery : Nat := 100
/-- PACE_DRIFT (R8), 100 ms in nanoseconds. -/
abbrev paceDriftNs : Int := 100000000
/-- Nominal cycle duration in nanoseconds, from CPU_HZ (R8). -/
abbrev cycleNs : Int := 1000000000 / cpuHz

/-! ## Types of the open parameters -/

/-- The role of a logical key code (R221). -/
inductive KeyRole where
  | cell (row : Fin matrixRows) (col : Fin matrixCols)
  | ctrl
  | shift
  | breakKey
  | repeatKey
  | nothing
  deriving DecidableEq, Repr, Inhabited

/-- An RGBA pixel of the raster (R250). The spec gives no width of a channel: four channels of 8 bits are a DESIGN CHOICE,
unsafe for a claim about the number of colours, log 21. -/
structure Rgba where
  r : Byte
  g : Byte
  b : Byte
  a : Byte
  deriving DecidableEq, Repr, Inhabited

/-- FDC_RESET_PORT_MODE (R9, R128). -/
inductive ResetPortMode where
  | ignore
  | reset
  deriving DecidableEq, Repr, Inhabited

/-- The open parameters of rule R9, but for ROM_IMAGE and DISK_IMAGE, which the state holds as memory. -/
structure Params where
  /-- FDC_BASE -/
  fdcBase : Nat
  /-- FDC_SIZE -/
  fdcSize : Nat
  /-- FDC_MASK -/
  fdcMask : Nat
  /-- PIA_BASE -/
  piaBase : Nat
  /-- PIA_SIZE -/
  piaSize : Nat
  /-- PIA_MASK -/
  piaMask : Nat
  /-- UNMAPPED_LO -/
  unmappedLo : Nat
  /-- UNMAPPED_HI -/
  unmappedHi : Nat
  /-- ST_BUSY -/
  stBusy : Byte
  /-- ST_RESULT_FULL -/
  stResultFull : Byte
  /-- ST_IRQ -/
  stIrq : Byte
  /-- ST_NON_DMA -/
  stNonDma : Byte
  /-- COUNT_MASK -/
  countMask : Byte
  /-- FDC_RESET_PORT_MODE -/
  resetPortMode : ResetPortMode
  /-- COL_MASK -/
  colMask : Byte
  /-- KEYMAP (R221): the role of each of the 61 key codes -/
  keymap : Vector KeyRole 61
  /-- RELEASE_OFFSET -/
  releaseOffset : Nat
  /-- QUEUE_CAP -/
  queueCap : Nat
  /-- FRAME_CYCLES -/
  frameCycles : Nat
  /-- SYNC_CYCLES -/
  syncCycles : Nat
  /-- VIDEO_BASE -/
  videoBase : Nat
  /-- FONT: 64 glyphs of 8 rows (R253) -/
  font : Vector (Vector Byte 8) 64
  /-- FONT_ROW: which font row each of the 12 cell lines shows, if any (R253) -/
  fontRow : Vector (Option (Fin 8)) 12
  /-- PALETTE_TEXT.light -/
  textLight : Rgba
  /-- PALETTE_TEXT.dark -/
  textDark : Rgba
  /-- PALETTE_SG (R254) -/
  paletteSg : Vector Rgba 8
  /-- SG_ON, indexed by the inverse bit -/
  sgOn : Vector (Fin 8) 2
  /-- SG_OFF, indexed by the inverse bit -/
  sgOff : Vector (Fin 8) 2
  /-- PALETTE_2 (R256) -/
  palette2 : Vector Rgba 2
  /-- PALETTE_4 (R256) -/
  palette4 : Vector Rgba 4
  deriving DecidableEq, Repr

/-- No two key codes have the same matrix cell (R10, R221). -/
abbrev DistinctCells (keymap : Vector KeyRole 61) : Prop :=
  ∀ (j k : Fin 61) (row : Fin matrixRows) (col : Fin matrixCols),
    keymap[j] = .cell row col → keymap[k] = .cell row col → j = k

/-- The constraints of rule R10 on the parameters, with RELEASE_OFFSET at least 61 and QUEUE_CAP at least 1 (R9). -/
structure Params.Ok (p : Params) : Prop where
  fdcInside      : p.fdcBase + p.fdcSize ≤ 0x10000
  piaInside      : p.piaBase + p.piaSize ≤ 0x10000
  unmappedInside : p.unmappedHi < 0x10000
  fdcPiaApart    : p.fdcBase + p.fdcSize ≤ p.piaBase ∨ p.piaBase + p.piaSize ≤ p.fdcBase
  fdcUnmApart    : p.fdcBase + p.fdcSize ≤ p.unmappedLo ∨ p.unmappedHi < p.fdcBase
  piaUnmApart    : p.piaBase + p.piaSize ≤ p.unmappedLo ∨ p.unmappedHi < p.piaBase
  fdcMultiple    : (p.fdcMask + 1) ∣ p.fdcSize
  piaMultiple    : (p.piaMask + 1) ∣ p.piaSize
  cellsApart     : DistinctCells p.keymap
  releaseAbove   : keyCount ≤ p.releaseOffset
  queueSome      : 1 ≤ p.queueCap
  videoInRam     : p.videoBase + rasterBytes - 1 ≤ ramHi

/-! ## Free values -/

/-- A `draw u8` (R12): any byte, for the n-th draw. DESIGN CHOICE, safe, log 8. -/
opaque freeByte : Nat → Byte

/-- The deadline that a sum outside u64 leaves (R166), for the n-th draw. DESIGN CHOICE, safe, log 9. -/
opaque freeCycle : Nat → Cycle

/-- The CPU collaborator's instruction where no other is supplied (R18), for the n-th draw. DESIGN CHOICE, safe, log 6. -/
opaque freeInstr : Nat → CpuInstr

/-- The host's wall clock in nanoseconds where no reading is supplied (R276), for the n-th draw. DESIGN CHOICE, safe, log 15. -/
opaque freeWallNs : Nat → Int

/-- KEYMAP before the constraint of R10 is applied. DESIGN CHOICE, safe, log 2. -/
opaque freeKeymap : Vector KeyRole 61

/-- RELEASE_OFFSET - 61. DESIGN CHOICE, safe, log 2. -/
opaque freeReleaseExtra : Nat

/-- QUEUE_CAP - 1. DESIGN CHOICE, safe, log 2. -/
opaque freeQueueExtra : Nat

/-- FONT. DESIGN CHOICE, safe, log 2. -/
opaque freeFont : Vector (Vector Byte 8) 64

/-- FONT_ROW. DESIGN CHOICE, safe, log 2. -/
opaque freeFontRow : Vector (Option (Fin 8)) 12

/-- PALETTE_TEXT.light. DESIGN CHOICE, safe, log 2. -/
opaque freeTextLight : Rgba

/-- PALETTE_TEXT.dark. DESIGN CHOICE, safe, log 2. -/
opaque freeTextDark : Rgba

/-- PALETTE_SG. DESIGN CHOICE, safe, log 2. -/
opaque freePaletteSg : Vector Rgba 8

/-- SG_ON. DESIGN CHOICE, safe, log 2. -/
opaque freeSgOn : Vector (Fin 8) 2

/-- SG_OFF. DESIGN CHOICE, safe, log 2. -/
opaque freeSgOff : Vector (Fin 8) 2

/-- PALETTE_2. DESIGN CHOICE, safe, log 2. -/
opaque freePalette2 : Vector Rgba 2

/-- PALETTE_4. DESIGN CHOICE, safe, log 2. -/
opaque freePalette4 : Vector Rgba 4

end Sys2Proof.Config
end

