-- ==== Sys2Proof/Machine/Flags.lean ====
section
/-! DEFINITION. The block's flags (R41): the FDC status values (R27), the drive-status byte (R157), and field sync (R240). -/

namespace Sys2Proof.Machine

open Sys2Proof.Config

/-- The status of an idle FDC (R27, R125). -/
def statusIdle : Byte := 0x00#8

/-- The status of an armed FDC (R27, R126, R159): busy. -/
def statusBusy (p : Params) : Byte := p.stBusy

/-- The status after a transfer tick (R27, R183): busy, interrupt request, non-DMA. -/
def statusTransfer (p : Params) : Byte := p.stBusy ||| p.stIrq ||| p.stNonDma

/-- The status after a completion tick (R27, R182): result-full and interrupt request. -/
def statusComplete (p : Params) : Byte := p.stResultFull ||| p.stIrq

/-- The test of the result-full flag (R125, R126). -/
def resultFull (p : Params) (status : Byte) : Bool := status &&& p.stResultFull ≠ 0#8

/-- The drive-status byte (R157). -/
def driveStatusByte (ready : Bool) (track : Byte) : Byte :=
  0x80#8 ||| 0x10#8 ||| (if ready then 0x04#8 else 0x00#8) ||| (if track = 0#8 then 0x02#8 else 0x00#8)

/-- `FieldSync(c)` (R240). -/
def fieldSync (p : Params) (c : Cycle) : Bool := c.toNat % p.frameCycles < p.syncCycles

end Sys2Proof.Machine
end

