-- ==== Sys2Proof/Machine/Defaults.lean ====
section
/-! DEFINITION. The defaults of the open parameters (R9), as a value of `Config.Params`. -/

namespace Sys2Proof.Machine

open Sys2Proof.Config

/-- KEYMAP: any map that gives no two codes one cell (R10, R221); free, log 2. -/
def defaultKeymap : Vector KeyRole 61 :=
  if DistinctCells freeKeymap then freeKeymap else Vector.replicate 61 .nothing

/-- The defaults of rule R9. Those marked (gk) there are PRESUMED by the spec (log 1); those with no default are free
constants (log 2). -/
def defaultParams : Params where
  fdcBase := 0x0A00
  fdcSize := 0x0100
  fdcMask := 0x07
  piaBase := 0xB000
  piaSize := 0x0400
  piaMask := 0x03
  unmappedLo := 0xB400
  unmappedHi := 0xBFFF
  stBusy := 0x80#8
  stResultFull := 0x10#8
  stIrq := 0x08#8
  stNonDma := 0x04#8
  countMask := 0x1F#8
  resetPortMode := .ignore
  colMask := 0x0F#8
  keymap := defaultKeymap
  releaseOffset := keyCount + freeReleaseExtra
  queueCap := 1 + freeQueueExtra
  frameCycles := cpuHz / frameRate
  syncCycles := cpuHz / frameRate * fieldNum / fieldDen
  videoBase := 0x8000
  font := freeFont
  fontRow := freeFontRow
  textLight := freeTextLight
  textDark := freeTextDark
  paletteSg := freePaletteSg
  sgOn := freeSgOn
  sgOff := freeSgOff
  palette2 := freePalette2
  palette4 := freePalette4

end Sys2Proof.Machine
end

