-- ==== Sys2Proof/Machine/Region.lean ====
section
/-! DEFINITION. The address decoder: the region of an address by priority (R100) and the port offset inside a window
(R105, R106). -/

namespace Sys2Proof.Machine

open Sys2Proof.Config

/-- The five regions of the address map (R66). -/
inductive Region where
  | fdc
  | ram
  | pia
  | unmapped
  | rom
  deriving DecidableEq, Repr

/-- `region(addr)` of rule R100: the first window that holds the address. -/
def region (p : Params) (addr : Addr) : Region :=
  if p.fdcBase ≤ addr.toNat ∧ addr.toNat < p.fdcBase + p.fdcSize then .fdc
  else if ramLo ≤ addr.toNat ∧ addr.toNat ≤ ramHi then .ram
  else if p.piaBase ≤ addr.toNat ∧ addr.toNat < p.piaBase + p.piaSize then .pia
  else if p.unmappedLo ≤ addr.toNat ∧ addr.toNat ≤ p.unmappedHi then .unmapped
  else .rom

/-- The FDC port offset (R105). -/
def fdcOffset (p : Params) (addr : Addr) : Nat := (addr.toNat - p.fdcBase) &&& p.fdcMask

/-- The PIA port offset (R106). -/
def piaOffset (p : Params) (addr : Addr) : Nat := (addr.toNat - p.piaBase) &&& p.piaMask

/-- The five documented FDC ports, in the order the source lists them (R82). -/
inductive FdcPort where
  | command
  | parameter
  | resetPort
  | unused
  | data
  deriving DecidableEq, Repr

/-- The four PIA registers, in the order the source lists them (R83). -/
inductive PiaPort where
  | portA
  | portB
  | portC
  | control
  deriving DecidableEq, Repr

/-- The FDC port at an offset (R82); offsets past the five are a hole (R90). -/
def fdcPortAt : Nat → Option FdcPort
  | 0 => some .command
  | 1 => some .parameter
  | 2 => some .resetPort
  | 3 => some .unused
  | 4 => some .data
  | _ => none

/-- The PIA register at an offset (R83). -/
def piaPortAt : Nat → Option PiaPort
  | 0 => some .portA
  | 1 => some .portB
  | 2 => some .portC
  | 3 => some .control
  | _ => none

/-- What an address stands for, region and port together (R81): exactly one rule for each direction. -/
inductive Target where
  | ram
  | rom
  | unmapped
  | fdc (port : FdcPort)
  | fdcHole
  | pia (port : PiaPort)
  deriving DecidableEq, Repr

/-- The target of an address (R81). A PIA offset of 4 or more, which only an open PIA_MASK above 3 gives, behaves as the
unmapped window does (R90; DEDUCED, safe, log 16). -/
def target (p : Params) (addr : Addr) : Target :=
  match region p addr with
  | .ram => .ram
  | .rom => .rom
  | .unmapped => .unmapped
  | .fdc => match fdcPortAt (fdcOffset p addr) with
    | some port => .fdc port
    | none => .fdcHole
  | .pia => match piaPortAt (piaOffset p addr) with
    | some port => .pia port
    | none => .unmapped

end Sys2Proof.Machine
end

