-- ==== Sys2Proof/Syntax.lean ====
section
/-! DEFINITION. The operations of the block: one constructor of `Instr` per row of the opcode table, and the words that
carry them (R80, R92). -/

namespace Sys2Proof

/-- The operations (R2), one constructor per row of the opcode table. A bus row keeps its whole address, since each window
aliases its ports (R105, R106). An FDC command row is the command byte (R154), so it keeps the drive bits. -/
inductive Instr where
  /-- RAM_READ, R103 -/
  | ramRead (addr : Addr)
  /-- RAM_WRITE, R104 -/
  | ramWrite (addr : Addr) (data : Byte)
  /-- ROM_READ, R109 -/
  | romRead (addr : Addr)
  /-- ROM_WRITE, R110 -/
  | romWrite (addr : Addr) (data : Byte)
  /-- UNMAPPED_READ, R107 -/
  | unmappedRead (addr : Addr)
  /-- UNMAPPED_WRITE, R108 -/
  | unmappedWrite (addr : Addr) (data : Byte)
  /-- FDC_STATUS_READ, R121 -/
  | fdcStatusRead (addr : Addr)
  /-- FDC_COMMAND_WRITE, R122 -/
  | fdcCommandWrite (addr : Addr) (data : Byte)
  /-- FDC_RESULT_READ, R123 -/
  | fdcResultRead (addr : Addr)
  /-- FDC_PARAM_WRITE, R124 -/
  | fdcParamWrite (addr : Addr) (data : Byte)
  /-- FDC_RESET_READ, R129 -/
  | fdcResetRead (addr : Addr)
  /-- FDC_RESET_WRITE, R128 -/
  | fdcResetWrite (addr : Addr) (data : Byte)
  /-- FDC_UNUSED_READ, R130 -/
  | fdcUnusedRead (addr : Addr)
  /-- FDC_UNUSED_WRITE, R131 -/
  | fdcUnusedWrite (addr : Addr) (data : Byte)
  /-- FDC_DATA_READ, R125 and R126 -/
  | fdcDataRead (addr : Addr)
  /-- FDC_DATA_WRITE, R127 -/
  | fdcDataWrite (addr : Addr) (data : Byte)
  /-- FDC_HOLE_READ, R132 -/
  | fdcHoleRead (addr : Addr)
  /-- FDC_HOLE_WRITE, R133 -/
  | fdcHoleWrite (addr : Addr) (data : Byte)
  /-- PIA_A_READ, R200 -/
  | piaARead (addr : Addr)
  /-- PIA_A_WRITE, R201 -/
  | piaAWrite (addr : Addr) (data : Byte)
  /-- PIA_B_READ, R202 -/
  | piaBRead (addr : Addr)
  /-- PIA_B_WRITE, R203 -/
  | piaBWrite (addr : Addr) (data : Byte)
  /-- PIA_C_READ, R204 -/
  | piaCRead (addr : Addr)
  /-- PIA_C_WRITE, R205 -/
  | piaCWrite (addr : Addr) (data : Byte)
  /-- PIA_CTRL_READ, R207 -/
  | piaCtrlRead (addr : Addr)
  /-- PIA_CTRL_WRITE, R206 -/
  | piaCtrlWrite (addr : Addr) (data : Byte)
  /-- FETCH, R111 -/
  | fetch (addr : Addr)
  /-- FDC_READ_DATA, R154 -/
  | fdcReadData (drive : BitVec 2)
  /-- FDC_SEEK, R155 -/
  | fdcSeek (drive : BitVec 2)
  /-- FDC_READ_DRIVE_STATUS, R156 -/
  | fdcReadDriveStatus (drive : BitVec 2)
  /-- FDC_SPECIFY, R161 -/
  | fdcSpecify (drive : BitVec 2)
  /-- FDC_WRITE_SPECIAL, R162 -/
  | fdcWriteSpecial (drive : BitVec 2)
  /-- FDC_UNKNOWN, R153 -/
  | fdcUnknown (drive : BitVec 2) (opcode : BitVec 6)
  /-- FDC_TICK, R180: `Tick(now)` -/
  | fdcTick (now : Cycle)
  /-- KEY_EVENT, R223: an integer code of the key channel -/
  | keyEvent (code : Int)
  /-- KBD_SCAN, R226: `scanColumn(columnSelect)` -/
  | kbdScan (col : Byte)
  /-- KBD_BREAK, R228 -/
  | kbdBreak
  /-- KBD_REPEAT, R229 -/
  | kbdRepeat
  /-- VDU_FIELDSYNC, R240: at the cycle count c -/
  | vduFieldsync (c : Cycle)
  /-- VDU_SNAPSHOT, R250 -/
  | vduSnapshot
  /-- SCHED_ITERATION, R270 -/
  | schedIteration
  /-- SCHED_DRAIN, R271 -/
  | schedDrain
  /-- SCHED_BREAK_CHECK, R272 -/
  | schedBreakCheck
  /-- SCHED_TICK, R273 -/
  | schedTick
  /-- SCHED_EXECUTE, R274 -/
  | schedExecute
  deriving DecidableEq, Repr

/-- A word as it comes, by the channel that carries it (R80). `bus`: the bytes addr[7:0], addr[15:8], data, dir with dir
0 = R, 1 = W, 2 = F. `fdcCmd`: the one command byte. `keyEvent`: the channel's integer. `event`: the number of a call of
the scheduler, the tick, the keyboard or the video generator, and its operand. The direction byte and the event numbers are
the model's (DESIGN CHOICE, safe, log 5): the table gives them no bits. -/
inductive OpWord where
  | bus (bytes : List Byte)
  | fdcCmd (bytes : List Byte)
  | keyEvent (code : Int)
  | event (number : Byte) (operand : Cycle)
  deriving DecidableEq, Repr

/-- One line of the access script (R92): a word and the cycle count its operation sees. -/
structure Line where
  now  : Cycle
  word : OpWord
  deriving DecidableEq, Repr

end Sys2Proof
end

