-- ==== Sys2Proof/WellFormed.lean ====
section
/-! DEFINITION. Which instructions a decoder can answer: a bus row's address must decode to that row's target (R81), and
FDC_UNKNOWN's opcode must be none of the five (R153). -/

namespace Sys2Proof

open Sys2Proof.Machine

/-- The five supported opcodes (R88). -/
abbrev SupportedOpcode (opcode : BitVec 6) : Prop :=
  opcode = Config.opReadData ∨ opcode = Config.opSeek ∨ opcode = Config.opReadDriveStatus ∨
    opcode = Config.opSpecify ∨ opcode = Config.opWriteSpecial

/-- The operands an instruction may have under the parameters p. -/
def Instr.WellFormed (p : Config.Params) : Instr → Bool
  | .ramRead a => target p a = .ram
  | .ramWrite a _ => target p a = .ram
  | .romRead a => target p a = .rom
  | .romWrite a _ => target p a = .rom
  | .unmappedRead a => target p a = .unmapped
  | .unmappedWrite a _ => target p a = .unmapped
  | .fdcStatusRead a => target p a = .fdc .command
  | .fdcCommandWrite a _ => target p a = .fdc .command
  | .fdcResultRead a => target p a = .fdc .parameter
  | .fdcParamWrite a _ => target p a = .fdc .parameter
  | .fdcResetRead a => target p a = .fdc .resetPort
  | .fdcResetWrite a _ => target p a = .fdc .resetPort
  | .fdcUnusedRead a => target p a = .fdc .unused
  | .fdcUnusedWrite a _ => target p a = .fdc .unused
  | .fdcDataRead a => target p a = .fdc .data
  | .fdcDataWrite a _ => target p a = .fdc .data
  | .fdcHoleRead a => target p a = .fdcHole
  | .fdcHoleWrite a _ => target p a = .fdcHole
  | .piaARead a => target p a = .pia .portA
  | .piaAWrite a _ => target p a = .pia .portA
  | .piaBRead a => target p a = .pia .portB
  | .piaBWrite a _ => target p a = .pia .portB
  | .piaCRead a => target p a = .pia .portC
  | .piaCWrite a _ => target p a = .pia .portC
  | .piaCtrlRead a => target p a = .pia .control
  | .piaCtrlWrite a _ => target p a = .pia .control
  | .fetch _ => true
  | .fdcReadData _ => true
  | .fdcSeek _ => true
  | .fdcReadDriveStatus _ => true
  | .fdcSpecify _ => true
  | .fdcWriteSpecial _ => true
  | .fdcUnknown _ op => ¬ SupportedOpcode op
  | .fdcTick _ => true
  | .keyEvent _ => true
  | .kbdScan _ => true
  | .kbdBreak => true
  | .kbdRepeat => true
  | .vduFieldsync _ => true
  | .vduSnapshot => true
  | .schedIteration => true
  | .schedDrain => true
  | .schedBreakCheck => true
  | .schedTick => true
  | .schedExecute => true

end Sys2Proof
end

