-- ==== Sys2Proof/Decode.lean ====
section
/-! DEFINITION. The decoder from words to instructions, total and rejecting by name (R80 to R90), and the encoder. -/

namespace Sys2Proof

open Sys2Proof.Machine

/-- Why a word is no word of its channel's format. No bus address and no FDC command byte is ever rejected (R89, R90,
R112): these are lines that carry no access, command or event at all. -/
inductive DecodeError where
  | busLength
  | busDirection
  | commandLength
  | eventNumber
  | eventOperand
  deriving DecidableEq, Repr

/-- The direction byte of a bus word (log 5). -/
def dirOfByte (b : Byte) : Option Dir :=
  if b = 0x00#8 then some .read
  else if b = 0x01#8 then some .write
  else if b = 0x02#8 then some .fetch
  else none

/-- The direction byte that stands for a direction. -/
def byteOfDir : Dir → Byte
  | .read => 0x00#8
  | .write => 0x01#8
  | .fetch => 0x02#8

/-- The read row that serves an address (R82, R83, R101). -/
def readRow (p : Config.Params) (addr : Addr) : Instr :=
  match target p addr with
  | .ram => .ramRead addr
  | .rom => .romRead addr
  | .unmapped => .unmappedRead addr
  | .fdc .command => .fdcStatusRead addr
  | .fdc .parameter => .fdcResultRead addr
  | .fdc .resetPort => .fdcResetRead addr
  | .fdc .unused => .fdcUnusedRead addr
  | .fdc .data => .fdcDataRead addr
  | .fdcHole => .fdcHoleRead addr
  | .pia .portA => .piaARead addr
  | .pia .portB => .piaBRead addr
  | .pia .portC => .piaCRead addr
  | .pia .control => .piaCtrlRead addr

/-- The write row that serves an address (R82, R83, R102). -/
def writeRow (p : Config.Params) (addr : Addr) (data : Byte) : Instr :=
  match target p addr with
  | .ram => .ramWrite addr data
  | .rom => .romWrite addr data
  | .unmapped => .unmappedWrite addr data
  | .fdc .command => .fdcCommandWrite addr data
  | .fdc .parameter => .fdcParamWrite addr data
  | .fdc .resetPort => .fdcResetWrite addr data
  | .fdc .unused => .fdcUnusedWrite addr data
  | .fdc .data => .fdcDataWrite addr data
  | .fdcHole => .fdcHoleWrite addr data
  | .pia .portA => .piaAWrite addr data
  | .pia .portB => .piaBWrite addr data
  | .pia .portC => .piaCWrite addr data
  | .pia .control => .piaCtrlWrite addr data

/-- The one row that a bus triple (dir, addr, data) selects (R81). The data bits of a read are the place of the returned
value (R80), so they select nothing (log 18). -/
def busRow (p : Config.Params) (dir : Dir) (addr : Addr) (data : Byte) : Instr :=
  match dir with
  | .read => readRow p addr
  | .write => writeRow p addr data
  | .fetch => .fetch addr

/-- The drive-select bits of a command byte: data[7:6] (R84). -/
def commandDrive (data : Byte) : BitVec 2 := data.extractLsb' 6 2

/-- The opcode of a command byte: data[5:0] (R84). -/
def commandOpcode (data : Byte) : BitVec 6 := data.extractLsb' 0 6

/-- The command byte of a drive and an opcode (R84). -/
def commandByte (drive : BitVec 2) (opcode : BitVec 6) : Byte := drive ++ opcode

/-- The command row that a command byte selects (R88). -/
def commandRow (data : Byte) : Instr :=
  if commandOpcode data = Config.opReadData then .fdcReadData (commandDrive data)
  else if commandOpcode data = Config.opSeek then .fdcSeek (commandDrive data)
  else if commandOpcode data = Config.opReadDriveStatus then .fdcReadDriveStatus (commandDrive data)
  else if commandOpcode data = Config.opSpecify then .fdcSpecify (commandDrive data)
  else if commandOpcode data = Config.opWriteSpecial then .fdcWriteSpecial (commandDrive data)
  else .fdcUnknown (commandDrive data) (commandOpcode data)

/-- An event that takes no operand; its operand bits must be zero. -/
def plainEvent (i : Instr) (operand : Cycle) : Except DecodeError Instr :=
  if operand = 0#64 then .ok i else .error .eventOperand

/-- The event that a number selects (the model's numbering, log 5). -/
def eventRow (number : Byte) (operand : Cycle) : Except DecodeError Instr :=
  match number.toNat with
  | 0 => .ok (.fdcTick operand)
  | 1 => if operand.toNat < 256 then .ok (.kbdScan (operand.extractLsb' 0 8)) else .error .eventOperand
  | 2 => plainEvent .kbdBreak operand
  | 3 => plainEvent .kbdRepeat operand
  | 4 => .ok (.vduFieldsync operand)
  | 5 => plainEvent .vduSnapshot operand
  | 6 => plainEvent .schedIteration operand
  | 7 => plainEvent .schedDrain operand
  | 8 => plainEvent .schedBreakCheck operand
  | 9 => plainEvent .schedTick operand
  | 10 => plainEvent .schedExecute operand
  | _ => .error .eventNumber

/-- The address that a bus word's first two bytes hold: bit 0 of the table's number is bit 0 of the first byte. -/
def addrOfBytes (lo hi : Byte) : Addr := hi ++ lo

/-- The instruction a word stands for, under the parameters p. -/
def decode (p : Config.Params) : OpWord → Except DecodeError Instr
  | .bus [lo, hi, data, dir] =>
    match dirOfByte dir with
    | some d => .ok (busRow p d (addrOfBytes lo hi) data)
    | none => .error .busDirection
  | .bus _ => .error .busLength
  | .fdcCmd [data] => .ok (commandRow data)
  | .fdcCmd _ => .error .commandLength
  | .keyEvent code => .ok (.keyEvent code)
  | .event number operand => eventRow number operand

/-- The word of a bus triple (R80). -/
def busWord (dir : Dir) (addr : Addr) (data : Byte) : OpWord :=
  .bus [addr.extractLsb' 0 8, addr.extractLsb' 8 8, data, byteOfDir dir]

/-- The word of an instruction (R80, R84; log 5 for the events). -/
def encode : Instr → OpWord
  | .ramRead a => busWord .read a 0
  | .ramWrite a d => busWord .write a d
  | .romRead a => busWord .read a 0
  | .romWrite a d => busWord .write a d
  | .unmappedRead a => busWord .read a 0
  | .unmappedWrite a d => busWord .write a d
  | .fdcStatusRead a => busWord .read a 0
  | .fdcCommandWrite a d => busWord .write a d
  | .fdcResultRead a => busWord .read a 0
  | .fdcParamWrite a d => busWord .write a d
  | .fdcResetRead a => busWord .read a 0
  | .fdcResetWrite a d => busWord .write a d
  | .fdcUnusedRead a => busWord .read a 0
  | .fdcUnusedWrite a d => busWord .write a d
  | .fdcDataRead a => busWord .read a 0
  | .fdcDataWrite a d => busWord .write a d
  | .fdcHoleRead a => busWord .read a 0
  | .fdcHoleWrite a d => busWord .write a d
  | .piaARead a => busWord .read a 0
  | .piaAWrite a d => busWord .write a d
  | .piaBRead a => busWord .read a 0
  | .piaBWrite a d => busWord .write a d
  | .piaCRead a => busWord .read a 0
  | .piaCWrite a d => busWord .write a d
  | .piaCtrlRead a => busWord .read a 0
  | .piaCtrlWrite a d => busWord .write a d
  | .fetch a => busWord .fetch a 0
  | .fdcReadData dr => .fdcCmd [commandByte dr Config.opReadData]
  | .fdcSeek dr => .fdcCmd [commandByte dr Config.opSeek]
  | .fdcReadDriveStatus dr => .fdcCmd [commandByte dr Config.opReadDriveStatus]
  | .fdcSpecify dr => .fdcCmd [commandByte dr Config.opSpecify]
  | .fdcWriteSpecial dr => .fdcCmd [commandByte dr Config.opWriteSpecial]
  | .fdcUnknown dr op => .fdcCmd [commandByte dr op]
  | .fdcTick c => .event 0 c
  | .keyEvent code => .keyEvent code
  | .kbdScan col => .event 1 (col.setWidth 64)
  | .kbdBreak => .event 2 0
  | .kbdRepeat => .event 3 0
  | .vduFieldsync c => .event 4 c
  | .vduSnapshot => .event 5 0
  | .schedIteration => .event 6 0
  | .schedDrain => .event 7 0
  | .schedBreakCheck => .event 8 0
  | .schedTick => .event 9 0
  | .schedExecute => .event 10 0

/-- The word that the table's bits stand for: an 8-bit row is an FDC command byte, a wider one a bus word whose low 16 bits
are the address, with the data and direction bytes above it (log 20). -/
def tableOpWord (nbits w : Nat) : OpWord :=
  let v := w % 2 ^ nbits
  if nbits ≤ 8 then .fdcCmd [BitVec.ofNat 8 v]
  else .bus [BitVec.ofNat 8 v, BitVec.ofNat 8 (v / 2 ^ 8), BitVec.ofNat 8 (v / 2 ^ 16), BitVec.ofNat 8 (v / 2 ^ 24)]

/-- The instruction the decoder reads from a row's bits as the opcode table numbers them, under the default placement,
to which the table's match and mask apply. -/
def decodeTableWord (nbits w : Nat) : Option Instr :=
  match decode Machine.defaultParams (tableOpWord nbits w) with
  | .ok i => some i
  | .error _ => none

end Sys2Proof
end

