-- ==== Sys2Proof/Machine/State.lean ====
section
/-! DEFINITION. The state of the block as plain data (10_state.md), the reasons a step can stop, and the state after reset. -/

namespace Sys2Proof.Machine

open Sys2Proof.Config

/-- A byte array held sparsely: pairs of address and byte, addresses strictly rising, no byte equal to what an unlisted
address reads as (`unlistedByte`). -/
abbrev Memory := List Host.Cell

/-- The FDC's record (R26). -/
structure Fdc where
  command          : BitVec 6
  drive            : BitVec 2
  status           : Byte
  result           : Byte
  selectedRegister : Byte
  paramIndex       : Nat
  track            : Byte
  sector           : Byte
  sectorCount      : Byte
  byteIndex        : Nat
  endIndex         : Nat
  nextByte         : Byte
  driveCountdown   : Nat
  driveReady       : Bool
  deadline         : Cycle
  deriving DecidableEq, Repr

/-- The PIA's four latches (R32). -/
structure Pia where
  portA   : Byte
  portB   : Byte
  portC   : Byte
  control : Byte
  deriving DecidableEq, Repr

/-- A queued key event (R37). -/
structure KeyEvent where
  key      : Fin 61
  released : Bool
  deriving DecidableEq, Repr

/-- The keyboard (R37). -/
structure Kbd where
  pressed : Vector Bool 61
  queue   : List KeyEvent
  deriving DecidableEq, Repr

/-- The pacing state (R40, R276). `sleepNs` is the wait the last pacing check asked of the host. -/
structure Pace where
  count   : Nat
  refNs   : Int
  sleepNs : Int
  deriving DecidableEq, Repr

/-- The scheduler's state (R39, R40). -/
structure Sched where
  breakPrev : Bool
  pace      : Pace
  deriving DecidableEq, Repr

/-- A call the block makes to the CPU collaborator (R12): `raiseNonMaskableInterrupt()` or `reset()`. -/
inductive Emit where
  | nmi
  | cpuReset
  deriving DecidableEq, Repr

/-- What an operation returns (R12): nothing, the byte on the data bus, a flag, the bytes that one CPU instruction's reads
returned, or a raster as its rows from the top, each from the left. -/
inductive Ret where
  | nothing
  | byte (v : Byte)
  | flag (b : Bool)
  | bytes (vs : List Byte)
  | raster (rows : List (List Rgba))
  deriving DecidableEq, Repr

/-- No operation of the block faults (R300): there is no fault, so no constructor. -/
inductive Fault : Type
  deriving DecidableEq, Repr

/-- Why a step can be refused. -/
inductive Refusal where
  /-- `exec`'s arm of an instruction without a meaning; no arm raises it now. Safe: the run stops. -/
  | notModelled (mnemonic : String)
  /-- `step`, for a pending schedule line that is no word of its channel's format (log 5). Safe: the run stops. -/
  | malformedLine (error : DecodeError)
  deriving DecidableEq, Repr

/-- The state: the parameters (R9), the arrays (R23, R24, R29), the units (R26, R32, R37, R39), the CPU's cycle count
(R25) and the least count it can show next, the collaborators' pending inputs, and the calls and values the block has given out. -/
structure State where
  cfg        : Params
  ram        : Memory
  rom        : Memory
  image      : List Byte
  fdc        : Fdc
  pia        : Pia
  kbd        : Kbd
  sched      : Sched
  now        : Cycle
  countFloor : Cycle
  cpu        : List CpuInstr
  wall       : List Int
  schedule   : List Line
  emitted    : List Emit
  ret        : Ret
  draws      : Nat
  deriving DecidableEq, Repr

/-- How a meaning or a step ends. -/
abbrev Result := Host.Outcome State Fault Refusal

/-- The FDC after reset (R26, R331). -/
def Fdc.reset : Fdc where
  command := 0
  drive := 0
  status := 0x00
  result := 0x00
  selectedRegister := 0x00
  paramIndex := 0
  track := 0
  sector := 0
  sectorCount := 0
  byteIndex := 0
  endIndex := 0
  nextByte := 0x00
  driveCountdown := 0
  driveReady := false
  deadline := 0

/-- The PIA after reset (R32, R331). -/
def Pia.reset : Pia where
  portA := 0x00
  portB := 0x00
  portC := 0x00
  control := 0x00

/-- The keyboard at power-on (R37). -/
def Kbd.powerOn : Kbd where
  pressed := Vector.replicate 61 false
  queue := []

/-- The scheduler at power-on (R39); the pacing values are DESIGN CHOICE, unsafe, log 15. -/
def Sched.powerOn : Sched where
  breakPrev := false
  pace := ⟨0, 0, 0⟩

/-- The power-on state (R332) for the parameters, the RAM draw, ROM_IMAGE and DISK_IMAGE given. One CPU reset has been
called (R332). The cycle count 0 is DESIGN CHOICE, unsafe, log 7. -/
def State.powerOn (cfg : Params) (ram rom : Memory) (image : List Byte) : State where
  cfg := cfg
  ram := ram
  rom := rom
  image := image
  fdc := Fdc.reset
  pia := Pia.reset
  kbd := Kbd.powerOn
  sched := Sched.powerOn
  now := 0
  countFloor := 0
  cpu := []
  wall := []
  schedule := []
  emitted := [.cpuReset]
  ret := .nothing
  draws := 0

/-- The state after reset: power-on with the default parameters and nothing listed in RAM, ROM and image (logs 3 and 4). -/
def State.reset : State := State.powerOn defaultParams [] [] []

end Sys2Proof.Machine
end

