-- ==== Sys2Proof/Machine/Operands.lean ====
section
/-! DEFINITION. The operand forms: the opcode classes (R88), Read Data's count and window (R85, R159), the special
register's value (R86), the key channel's codes (R87) and the fields of Port A (R33). -/

namespace Sys2Proof.Machine

open Sys2Proof.Config

/-- The opcode classes of rule R88. -/
inductive FdcOp where
  | readData
  | seek
  | readDriveStatus
  | specify
  | writeSpecial
  | unknown
  deriving DecidableEq, Repr

/-- The class of an opcode (R88). -/
def fdcOp (opcode : BitVec 6) : FdcOp :=
  if opcode = opReadData then .readData
  else if opcode = opSeek then .seek
  else if opcode = opReadDriveStatus then .readDriveStatus
  else if opcode = opSpecify then .specify
  else if opcode = opWriteSpecial then .writeSpecial
  else .unknown

/-- The sector count of Read Data's third parameter (R85). -/
def sectorCountOf (p : Params) (data : Byte) : Byte := data &&& p.countMask

/-- The linear index of a track and sector (R159). -/
def transferStart (track sector : Byte) : Nat := track.toNat * trackBytes + sector.toNat * sectorBytes

/-- The end of a transfer, clamped to the image length (R159). -/
def transferEnd (start : Nat) (count : Byte) (imageLength : Nat) : Nat :=
  min (start + count.toNat * sectorBytes) imageLength

/-- Whether a value for a special register starts the drive countdown (R86, R163). -/
def startsDrive (register value : Byte) : Bool := register = specialDriveCtrl && value.getLsbD 6

/-- The event an integer code of the key channel stands for (R87): a press, a release, or none. -/
def keyEventOf (p : Params) (code : Int) : Option KeyEvent :=
  if h : code.toNat < 61 ∧ 0 ≤ code then some ⟨⟨code.toNat, h.1⟩, false⟩
  else if h : (code - p.releaseOffset).toNat < 61 ∧ (p.releaseOffset : Int) ≤ code then
    some ⟨⟨(code - p.releaseOffset).toNat, h.1⟩, true⟩
  else none

/-- The keyboard column that Port A selects (R33, R202). -/
def columnOf (p : Params) (portA : Byte) : Byte := portA &&& p.colMask

/-- Port A's graphics bit as a bit mask test (R208). -/
def graphicsSelected (portA : Byte) : Bool := portA &&& 0x10#8 ≠ 0#8

/-- Port A's graphics submode, bits 7:5 (R33, R255). -/
def submodeOf (portA : Byte) : BitVec 3 := portA.extractLsb' 5 3

end Sys2Proof.Machine
end

