-- ==== Sys2Proof/Machine/Ops.lean ====
section
/-! DEFINITION. The shared operations over memory and state: byte arrays, named updates, draws, the two calls made to the
CPU (the block's whole part of an interrupt and of a reset, R184, R331), and the arming of a deadline. -/

namespace Sys2Proof.Machine

open Sys2Proof.Config

/-! ## Byte arrays -/

/-- What an address that no entry lists reads as. DESIGN CHOICE, unsafe: log 3 (RAM) and log 4 (ROM). -/
def unlistedByte : Byte := 0x00#8

/-- The byte at an address. -/
def Memory.read : Memory → Nat → Byte
  | [], _ => unlistedByte
  | (k, v) :: rest, a => if k = a then v else Memory.read rest a

/-- The array with one byte written, in canonical form. -/
def Memory.write : Memory → Nat → Byte → Memory
  | [], a, v => if v = unlistedByte then [] else [(a, v)]
  | (k, w) :: rest, a, v =>
    if a < k then if v = unlistedByte then (k, w) :: rest else (a, v) :: (k, w) :: rest
    else if a = k then if v = unlistedByte then rest else (a, v) :: rest
    else (k, w) :: Memory.write rest a v

/-- The canonical form: addresses strictly rising, no entry equal to what an unlisted address reads as. -/
abbrev Memory.wf (m : Memory) : Prop :=
  m.Pairwise (fun x y => x.1 < y.1) ∧ ∀ c ∈ m, c.2 ≠ unlistedByte

/-! ## Named updates of the state -/

/-- The state with the value an operation returns (`return v`, R12). -/
def State.returning (s : State) (r : Ret) : State := { s with ret := r }

/-- The state with another RAM. -/
def State.withRam (s : State) (m : Memory) : State := { s with ram := m }

/-- The state with another FDC record. -/
def State.withFdc (s : State) (f : Fdc) : State := { s with fdc := f }

/-- The state with other PIA latches. -/
def State.withPia (s : State) (p : Pia) : State := { s with pia := p }

/-- The state with another keyboard. -/
def State.withKbd (s : State) (k : Kbd) : State := { s with kbd := k }

/-- The state with another scheduler state. -/
def State.withSched (s : State) (c : Sched) : State := { s with sched := c }

/-- The state at another cycle count of the CPU collaborator (R25), whatever came before. -/
def State.withNow (s : State) (c : Cycle) : State := { s with now := c }

/-- The later of two cycle counts. -/
def laterCount (a b : Cycle) : Cycle := if a.toNat ≤ b.toNat then b else a

/-- The state in which the CPU collaborator's count is read as c. The count never goes down between CPU resets (R18, R25), so
a reading is at least every earlier one since the last reset: a supplied count below `countFloor` is taken as `countFloor`
(DESIGN CHOICE, safe, log 7). -/
def State.atCount (s : State) (c : Cycle) : State :=
  { s with now := laterCount s.countFloor c, countFloor := laterCount s.countFloor c }

/-- The state after one more free value has been drawn. -/
def State.drawn (s : State) : State := { s with draws := s.draws + 1 }

/-- The state after one more call to the CPU collaborator. -/
def State.emit (s : State) (e : Emit) : State := { s with emitted := s.emitted ++ [e] }

/-! ## Draws -/

/-- Return a `draw u8` (R12; log 8). -/
def returnDraw (s : State) : State := s.drawn.returning (.byte (freeByte s.draws))

/-! ## The calls to the CPU collaborator -/

/-- `emit NMI` (R184): the block's whole part of an interrupt entry. Saving the CPU's state and vectoring are the CPU's
(R308), and the block has no return from it (R309). -/
def raiseNmi (s : State) : State := s.emit .nmi

/-- `emit CPU_RESET` (R331). Whether the CPU's count restarts is the collaborator's (D34), so any count may follow. -/
def callCpuReset (s : State) : State := { s.emit .cpuReset with countFloor := 0 }

/-- `PiaReset()` of rule R331. -/
def piaReset (s : State) : State :=
  s.withPia { portA := 0x00, portB := 0x00, portC := 0x00, control := 0x00 }

/-- `FdcReset()` of rule R331. -/
def fdcReset (s : State) : State :=
  s.withFdc
    { command := 0, drive := 0, status := 0x00, result := 0x00, selectedRegister := 0x00, paramIndex := 0
      track := 0, sector := 0, sectorCount := 0, byteIndex := 0, endIndex := 0, nextByte := 0x00
      driveCountdown := 0, driveReady := false, deadline := 0 }

/-- `SystemReset()` of rule R331: the CPU's reset is called, then the PIA and the FDC are reset. -/
def systemReset (s : State) : State := fdcReset (piaReset (callCpuReset s))

/-! ## Arming -/

/-- `fdc.deadline <- now + BYTE_LATENCY` (R126, R159), which replaces any armed deadline. Where the sum does not fit u64,
outside the domain of rule R166, the deadline is a free value (log 9). -/
def armDeadline (s : State) : State :=
  if s.now.toNat + byteLatency < 2 ^ 64 then
    s.withFdc { s.fdc with deadline := s.now + BitVec.ofNat 64 byteLatency }
  else
    s.drawn.withFdc { s.fdc with deadline := freeCycle s.draws }

end Sys2Proof.Machine
end

