-- ==== Sys2Proof/Machine/FdcCommands.lean ====
section
/-! DEFINITION. The FDC commands (42_fdc_commands.md): what each opcode does at its command byte (R151) and at each
parameter byte (R152), and the meanings of the six command rows. -/

namespace Sys2Proof.Machine

open Sys2Proof.Config

/-! ## At the command byte -/

/-- What every command byte does before its own action (R122): command, drive and parameter index, nothing else. -/
def latchCommand (drive : BitVec 2) (opcode : BitVec 6) (s : State) : State :=
  s.withFdc { s.fdc with command := opcode, drive := drive, paramIndex := 0 }

/-- Read Data at the command byte (R154): no action. -/
def readDataCommand (s : State) : State := s

/-- Seek at the command byte (R155): nothing. -/
def seekCommand (s : State) : State := s

/-- Read Drive Status (R156): the result becomes the drive-status byte; status is unchanged. -/
def readDriveStatusCommand (s : State) : State :=
  s.withFdc { s.fdc with result := driveStatusByte s.fdc.driveReady s.fdc.track }

/-- Specify at the command byte (R161): nothing. -/
def specifyCommand (s : State) : State := s

/-- Write Special Register at the command byte (R162): nothing. -/
def writeSpecialCommand (s : State) : State := s

/-- An unknown command (R153): nothing. -/
def unknownCommand (s : State) : State := s

/-- `CommandAction(op)` (R151). -/
def commandAction (opcode : BitVec 6) (s : State) : State :=
  match fdcOp opcode with
  | .readData => readDataCommand s
  | .seek => seekCommand s
  | .readDriveStatus => readDriveStatusCommand s
  | .specify => specifyCommand s
  | .writeSpecial => writeSpecialCommand s
  | .unknown => unknownCommand s

/-! ## At a parameter byte -/

/-- Read Data's third parameter (R159): the transfer starts. -/
def readDataStart (data : Byte) (s : State) : State :=
  let count := sectorCountOf s.cfg data
  let start := transferStart s.fdc.track s.fdc.sector
  let stop := transferEnd start count s.image.length
  armDeadline
    (s.withFdc
      { s.fdc with
        sectorCount := count, endIndex := stop, byteIndex := min start stop, status := statusBusy s.cfg })

/-- Read Data's parameters (R158, R159, R160). -/
def readDataParam (data : Byte) (s : State) : State :=
  match s.fdc.paramIndex with
  | 0 => s.withFdc { s.fdc with track := data }
  | 1 => s.withFdc { s.fdc with sector := data }
  | 2 => readDataStart data s
  | _ => s

/-- Seek's parameter (R155, R165). -/
def seekParam (data : Byte) (s : State) : State :=
  match s.fdc.paramIndex with
  | 0 => s.withFdc { s.fdc with track := data }
  | _ => s

/-- Read Drive Status's parameters: ignored (R156). -/
def readDriveStatusParam (_data : Byte) (s : State) : State := s

/-- Specify's parameters: ignored (R161). -/
def specifyParam (_data : Byte) (s : State) : State := s

/-- Write Special Register's value (R163, R164). -/
def writeSpecial (data : Byte) (s : State) : State :=
  if startsDrive s.fdc.selectedRegister data then s.withFdc { s.fdc with driveCountdown := driveSpinup } else s

/-- Write Special Register's parameters (R162 to R165). -/
def writeSpecialParam (data : Byte) (s : State) : State :=
  match s.fdc.paramIndex with
  | 0 => s.withFdc { s.fdc with selectedRegister := data }
  | 1 => writeSpecial data s
  | _ => s

/-- An unknown command's parameters: ignored (R153). -/
def unknownParam (_data : Byte) (s : State) : State := s

/-- `ParamAction(op, i, data, now)` (R152), for the command and the index that the FDC holds. -/
def paramAction (data : Byte) (s : State) : State :=
  match fdcOp s.fdc.command with
  | .readData => readDataParam data s
  | .seek => seekParam data s
  | .readDriveStatus => readDriveStatusParam data s
  | .specify => specifyParam data s
  | .writeSpecial => writeSpecialParam data s
  | .unknown => unknownParam data s

/-! ## The command rows -/

/-- FDC_READ_DATA (R154). -/
def execFdcReadData (drive : BitVec 2) (s : State) : Result :=
  .next ((readDataCommand (latchCommand drive opReadData s)).returning .nothing)

/-- FDC_SEEK (R155). -/
def execFdcSeek (drive : BitVec 2) (s : State) : Result :=
  .next ((seekCommand (latchCommand drive opSeek s)).returning .nothing)

/-- FDC_READ_DRIVE_STATUS (R156). -/
def execFdcReadDriveStatus (drive : BitVec 2) (s : State) : Result :=
  .next ((readDriveStatusCommand (latchCommand drive opReadDriveStatus s)).returning .nothing)

/-- FDC_SPECIFY (R161). -/
def execFdcSpecify (drive : BitVec 2) (s : State) : Result :=
  .next ((specifyCommand (latchCommand drive opSpecify s)).returning .nothing)

/-- FDC_WRITE_SPECIAL (R162). -/
def execFdcWriteSpecial (drive : BitVec 2) (s : State) : Result :=
  .next ((writeSpecialCommand (latchCommand drive opWriteSpecial s)).returning .nothing)

/-- FDC_UNKNOWN (R153). -/
def execFdcUnknown (drive : BitVec 2) (opcode : BitVec 6) (s : State) : Result :=
  .next ((unknownCommand (latchCommand drive opcode s)).returning .nothing)

end Sys2Proof.Machine
end

