-- ==== Sys2Proof/Machine/FdcPorts.lean ====
section
/-! DEFINITION. The FDC register ports (41_fdc_ports.md): one operation per port and direction, and the meanings of the
twelve port rows. The address only chooses the row: the port's effect does not depend on which alias was used (R105). -/

namespace Sys2Proof.Machine

/-- `StatusRead()` (R121): the live status; nothing is cleared. -/
def statusRead (s : State) : State := s.returning (.byte s.fdc.status)

/-- `CommandWrite(data)` (R122). -/
def commandWrite (data : Byte) (s : State) : State :=
  (commandAction (commandOpcode data) (latchCommand (commandDrive data) (commandOpcode data) s)).returning .nothing

/-- `ResultRead()` (R123): nothing is cleared. -/
def resultRead (s : State) : State := s.returning (.byte s.fdc.result)

/-- The index increment that ends a parameter write (R124). -/
def countParam (s : State) : State := s.withFdc { s.fdc with paramIndex := s.fdc.paramIndex + 1 }

/-- `ParamWrite(data, now)` (R124). -/
def paramWrite (data : Byte) (s : State) : State := (countParam (paramAction data s)).returning .nothing

/-- `ResetPortRead()` (R129): a draw, no state change. -/
def resetPortRead (s : State) : State := returnDraw s

/-- `ResetPortWrite(data)` (R128), by FDC_RESET_PORT_MODE. -/
def resetPortWrite (_data : Byte) (s : State) : State :=
  match s.cfg.resetPortMode with
  | .ignore => s.returning .nothing
  | .reset => (fdcReset s).returning .nothing

/-- `UnusedRead()` (R130): a draw, no state change. -/
def unusedRead (s : State) : State := returnDraw s

/-- A discarded write (R108, R110, R127, R131, R133). -/
def discardWrite (_data : Byte) (s : State) : State := s.returning .nothing

/-- A read that returns 0x00 (R107, R132). -/
def zeroRead (s : State) : State := s.returning (.byte 0x00#8)

/-- `DataRead(now)`: with result-full set the status is cleared and a draw returned (R125); otherwise the latch is
returned, the status set to busy and a deadline armed (R126). -/
def dataRead (s : State) : State :=
  if resultFull s.cfg s.fdc.status then
    returnDraw (s.withFdc { s.fdc with status := statusIdle })
  else
    (armDeadline (s.withFdc { s.fdc with status := statusBusy s.cfg })).returning (.byte s.fdc.nextByte)

/-! ## The port rows -/

/-- FDC_STATUS_READ (R121). -/
def execFdcStatusRead (_addr : Addr) (s : State) : Result := .next (statusRead s)

/-- FDC_COMMAND_WRITE (R122). -/
def execFdcCommandWrite (_addr : Addr) (data : Byte) (s : State) : Result := .next (commandWrite data s)

/-- FDC_RESULT_READ (R123). -/
def execFdcResultRead (_addr : Addr) (s : State) : Result := .next (resultRead s)

/-- FDC_PARAM_WRITE (R124). -/
def execFdcParamWrite (_addr : Addr) (data : Byte) (s : State) : Result := .next (paramWrite data s)

/-- FDC_RESET_READ (R129). -/
def execFdcResetRead (_addr : Addr) (s : State) : Result := .next (resetPortRead s)

/-- FDC_RESET_WRITE (R128). -/
def execFdcResetWrite (_addr : Addr) (data : Byte) (s : State) : Result := .next (resetPortWrite data s)

/-- FDC_UNUSED_READ (R130). -/
def execFdcUnusedRead (_addr : Addr) (s : State) : Result := .next (unusedRead s)

/-- FDC_UNUSED_WRITE (R131). -/
def execFdcUnusedWrite (_addr : Addr) (data : Byte) (s : State) : Result := .next (discardWrite data s)

/-- FDC_DATA_READ (R125, R126). -/
def execFdcDataRead (_addr : Addr) (s : State) : Result := .next (dataRead s)

/-- FDC_DATA_WRITE (R127). -/
def execFdcDataWrite (_addr : Addr) (data : Byte) (s : State) : Result := .next (discardWrite data s)

/-- FDC_HOLE_READ (R132). -/
def execFdcHoleRead (_addr : Addr) (s : State) : Result := .next (zeroRead s)

/-- FDC_HOLE_WRITE (R133). -/
def execFdcHoleWrite (_addr : Addr) (data : Byte) (s : State) : Result := .next (discardWrite data s)

end Sys2Proof.Machine
end

