-- ==== Sys2Proof/Machine/Keyboard.lean ====
section
/-! DEFINITION. The keyboard (45_keyboard.md): events, drain, held keys and the matrix scan. -/

namespace Sys2Proof.Machine

open Sys2Proof.Config

/-- `held(role)` (R222): some pressed code has the role. -/
def held (s : State) (role : KeyRole) : Bool :=
  (List.finRange 61).any fun k => s.cfg.keymap[k] == role && s.kbd.pressed[k]

/-- `resetRequested()`: BreakHeld (R228). -/
def resetRequested (s : State) : Bool := held s .breakKey

/-- `repeatHeld()`: RepeatHeld (R229). -/
def repeatHeld (s : State) : Bool := held s .repeatKey

/-- Whether the key at (row, column) is held; a column above 9 has no key (R226, R227). -/
def cellHeld (s : State) (row : Fin matrixRows) (col : Byte) : Bool :=
  if h : col.toNat < matrixCols then held s (.cell row ⟨col.toNat, h⟩) else false

/-- A scan byte with one bit pulled low where the flag is set (R226: active low). -/
def pullLow (flag : Bool) (bit : Nat) (v : Byte) : Byte := if flag then v &&& ~~~(1#8 <<< bit) else v

/-- `ScanColumn(col)` (R226): bits 0 to 5 the rows, bit 6 Ctrl, bit 7 Shift, all active low. -/
def scanColumn (s : State) (col : Byte) : Byte :=
  pullLow (held s .shift) 7
    (pullLow (held s .ctrl) 6
      ((List.finRange matrixRows).foldl (fun v row => pullLow (cellHeld s row col) row.val v) 0xFF#8))

/-- `SendEvent` for a code of the key channel (R87, R224): dropped when it is out of range or the queue is full. -/
def sendEvent (code : Int) (s : State) : State :=
  match keyEventOf s.cfg code with
  | none => s
  | some e =>
    if s.cfg.queueCap ≤ s.kbd.queue.length then s
    else s.withKbd { s.kbd with queue := s.kbd.queue ++ [e] }

/-- One event applied to the pressed keys (R225). -/
def applyEvent (pressed : Vector Bool 61) (e : KeyEvent) : Vector Bool 61 := pressed.set e.key (!e.released)

/-- `DrainEvents()` (R225): the queued events, oldest first, and an empty queue. -/
def drainEvents (s : State) : State :=
  s.withKbd { pressed := s.kbd.queue.foldl applyEvent s.kbd.pressed, queue := [] }

/-- KEY_EVENT (R223, R224). -/
def execKeyEvent (code : Int) (s : State) : Result := .next ((sendEvent code s).returning .nothing)

/-- KBD_SCAN (R226). -/
def execKbdScan (col : Byte) (s : State) : Result := .next (s.returning (.byte (scanColumn s col)))

/-- KBD_BREAK (R228). -/
def execKbdBreak (s : State) : Result := .next (s.returning (.flag (resetRequested s)))

/-- KBD_REPEAT (R229). -/
def execKbdRepeat (s : State) : Result := .next (s.returning (.flag (repeatHeld s)))

end Sys2Proof.Machine
end

