-- ==== Sys2Proof/Machine/Pia.lean ====
section
/-! DEFINITION. The PIA ports (44_pia.md): one operation per register and direction, and the meanings of the eight rows. -/

namespace Sys2Proof.Machine

/-- Port A read (R200): the latch. -/
def portARead (s : State) : State := s.returning (.byte s.pia.portA)

/-- Port A write (R201). -/
def portAWrite (data : Byte) (s : State) : State := (s.withPia { s.pia with portA := data }).returning .nothing

/-- Port B read (R202): the scan of the column Port A selects, stored and returned. -/
def portBRead (s : State) : State :=
  let v := scanColumn s (columnOf s.cfg s.pia.portA)
  (s.withPia { s.pia with portB := v }).returning (.byte v)

/-- Port B write (R203). -/
def portBWrite (data : Byte) (s : State) : State := (s.withPia { s.pia with portB := data }).returning .nothing

/-- The value of a Port C read (R204): the latch's low six bits with field sync and Repeat overlaid, active low. -/
def portCValue (s : State) : Byte :=
  (s.pia.portC &&& 0x3F#8) ||| (if fieldSync s.cfg s.now then 0x00#8 else 0x80#8)
    ||| (if repeatHeld s then 0x00#8 else 0x40#8)

/-- Port C read (R204): the overlaid value, stored and returned. -/
def portCRead (s : State) : State :=
  let v := portCValue s
  (s.withPia { s.pia with portC := v }).returning (.byte v)

/-- Port C write (R205). -/
def portCWrite (data : Byte) (s : State) : State := (s.withPia { s.pia with portC := data }).returning .nothing

/-- Control write (R206). -/
def controlWrite (data : Byte) (s : State) : State := (s.withPia { s.pia with control := data }).returning .nothing

/-- Control read (R207). -/
def controlRead (s : State) : State := s.returning (.byte s.pia.control)

/-- PIA_A_READ (R200). -/
def execPiaARead (_addr : Addr) (s : State) : Result := .next (portARead s)

/-- PIA_A_WRITE (R201). -/
def execPiaAWrite (_addr : Addr) (data : Byte) (s : State) : Result := .next (portAWrite data s)

/-- PIA_B_READ (R202). -/
def execPiaBRead (_addr : Addr) (s : State) : Result := .next (portBRead s)

/-- PIA_B_WRITE (R203). -/
def execPiaBWrite (_addr : Addr) (data : Byte) (s : State) : Result := .next (portBWrite data s)

/-- PIA_C_READ (R204). -/
def execPiaCRead (_addr : Addr) (s : State) : Result := .next (portCRead s)

/-- PIA_C_WRITE (R205). -/
def execPiaCWrite (_addr : Addr) (data : Byte) (s : State) : Result := .next (portCWrite data s)

/-- PIA_CTRL_READ (R207). -/
def execPiaCtrlRead (_addr : Addr) (s : State) : Result := .next (controlRead s)

/-- PIA_CTRL_WRITE (R206). -/
def execPiaCtrlWrite (_addr : Addr) (data : Byte) (s : State) : Result := .next (controlWrite data s)

end Sys2Proof.Machine
end

