-- ==== Sys2Proof/Machine/Bus.lean ====
section
/-! DEFINITION. The memory bus (40_bus_decoder.md): the bus read and write by the decoded target, the meanings of the RAM,
ROM and unmapped rows, and the instruction fetch. -/

namespace Sys2Proof.Machine

/-- RAM read (R103): `return RAM[addr]`. -/
def ramLoad (addr : Addr) (s : State) : State := s.returning (.byte (s.ram.read addr.toNat))

/-- RAM write (R104): `RAM[addr] <- data`. -/
def ramStore (addr : Addr) (data : Byte) (s : State) : State :=
  (s.withRam (s.ram.write addr.toNat data)).returning .nothing

/-- ROM read (R109): `return ROM[addr]`. -/
def romLoad (addr : Addr) (s : State) : State := s.returning (.byte (s.rom.read addr.toNat))

/-- `FdcRead(off, now)` (R120), by port. -/
def fdcRead (port : FdcPort) (s : State) : State :=
  match port with
  | .command => statusRead s
  | .parameter => resultRead s
  | .resetPort => resetPortRead s
  | .unused => unusedRead s
  | .data => dataRead s

/-- `FdcWrite(off, data, now)` (R120), by port. -/
def fdcWrite (port : FdcPort) (data : Byte) (s : State) : State :=
  match port with
  | .command => commandWrite data s
  | .parameter => paramWrite data s
  | .resetPort => resetPortWrite data s
  | .unused => discardWrite data s
  | .data => discardWrite data s

/-- `PiaRead(off, now)` (44_pia.md), by register. -/
def piaRead (port : PiaPort) (s : State) : State :=
  match port with
  | .portA => portARead s
  | .portB => portBRead s
  | .portC => portCRead s
  | .control => controlRead s

/-- `PiaWrite(off, data)` (44_pia.md), by register. -/
def piaWrite (port : PiaPort) (data : Byte) (s : State) : State :=
  match port with
  | .portA => portAWrite data s
  | .portB => portBWrite data s
  | .portC => portCWrite data s
  | .control => controlWrite data s

/-- `BusRead(addr, now)` (R101). -/
def busRead (addr : Addr) (s : State) : State :=
  match target s.cfg addr with
  | .ram => ramLoad addr s
  | .rom => romLoad addr s
  | .unmapped => zeroRead s
  | .fdc port => fdcRead port s
  | .fdcHole => zeroRead s
  | .pia port => piaRead port s

/-- `BusWrite(addr, data, now)` (R102). -/
def busWrite (addr : Addr) (data : Byte) (s : State) : State :=
  match target s.cfg addr with
  | .ram => ramStore addr data s
  | .rom => discardWrite data s
  | .unmapped => discardWrite data s
  | .fdc port => fdcWrite port data s
  | .fdcHole => discardWrite data s
  | .pia port => piaWrite port data s

/-- RAM_READ (R103). -/
def execRamRead (addr : Addr) (s : State) : Result := .next (ramLoad addr s)

/-- RAM_WRITE (R104). -/
def execRamWrite (addr : Addr) (data : Byte) (s : State) : Result := .next (ramStore addr data s)

/-- ROM_READ (R109). -/
def execRomRead (addr : Addr) (s : State) : Result := .next (romLoad addr s)

/-- ROM_WRITE (R110): discarded. -/
def execRomWrite (_addr : Addr) (data : Byte) (s : State) : Result := .next (discardWrite data s)

/-- UNMAPPED_READ (R107): 0x00. -/
def execUnmappedRead (_addr : Addr) (s : State) : Result := .next (zeroRead s)

/-- UNMAPPED_WRITE (R108): discarded. -/
def execUnmappedWrite (_addr : Addr) (data : Byte) (s : State) : Result := .next (discardWrite data s)

/-- FETCH (R111): the bus read, with every side effect. -/
def execFetch (addr : Addr) (s : State) : Result := .next (busRead addr s)

end Sys2Proof.Machine
end

