-- ==== Sys2Proof/Machine/FdcTick.lean ====
section
/-! DEFINITION. The FDC tick (43_fdc_tick.md): the drive-select countdown and the delayed interrupt. -/

namespace Sys2Proof.Machine

open Sys2Proof.Config

/-- Tick step 1 (R181): an active countdown goes down by one, and the decrement to 0 marks the drive ready. -/
def tickCountdown (s : State) : State :=
  if 0 < s.fdc.driveCountdown then
    s.withFdc
      { s.fdc with
        driveCountdown := s.fdc.driveCountdown - 1
        driveReady := s.fdc.driveReady || s.fdc.driveCountdown == 1 }
  else s

/-- The image byte at the cursor. Past the image, where no reachable state reads (R183), it is a free value (log 17). -/
def imageByte (s : State) : Byte × State :=
  match s.image[s.fdc.byteIndex]? with
  | some b => (b, s)
  | none => (freeByte s.draws, s.drawn)

/-- Tick step 2, completion (R182). -/
def tickComplete (s : State) : State :=
  raiseNmi (s.withFdc { s.fdc with status := statusComplete s.cfg, result := 0x00#8, deadline := 0#64 })

/-- Tick step 2, transfer of the next byte (R183). -/
def tickTransfer (s : State) : State :=
  let b := imageByte s
  raiseNmi
    (b.2.withFdc
      { s.fdc with
        nextByte := b.1, byteIndex := s.fdc.byteIndex + 1, status := statusTransfer s.cfg, deadline := 0#64 })

/-- Whether step 2 fires at the cycle count c (R180). -/
def deadlineDue (c : Cycle) (f : Fdc) : Bool := f.deadline ≠ 0#64 && f.deadline.ule c

/-- Tick step 2 (R182 to R185). -/
def tickDeadline (c : Cycle) (s : State) : State :=
  if deadlineDue c s.fdc then
    if s.fdc.endIndex ≤ s.fdc.byteIndex then tickComplete s else tickTransfer s
  else s

/-- `Tick(now)` (R180): step 1, then step 2. -/
def tick (c : Cycle) (s : State) : State := tickDeadline c (tickCountdown s)

/-- FDC_TICK (R180). -/
def execFdcTick (now : Cycle) (s : State) : Result := .next ((tick now s).returning .nothing)

end Sys2Proof.Machine
end

