-- ==== Sys2Proof/Machine/Scheduler.lean ====
section
/-! DEFINITION. The Timing Scheduler (47_scheduler.md): the Break-edge check, the CPU collaborator's instruction, the
pacing, and the iteration. -/

namespace Sys2Proof.Machine

open Sys2Proof.Config

/-! ## Break check -/

/-- `BreakCheck()` (R272): a reset on the rising edge of Break, and the sample kept for the next check. -/
def breakCheck (s : State) : State :=
  let b := resetRequested s
  let s' := if b && !s.sched.breakPrev then systemReset s else s
  s'.withSched { s'.sched with breakPrev := b }

/-! ## One CPU instruction -/

/-- The CPU collaborator's next instruction (R18): the oldest supplied one, else a free value (log 6). -/
def nextInstr (s : State) : CpuInstr × State :=
  match s.cpu with
  | i :: rest => (i, { s with cpu := rest })
  | [] => (freeInstr s.draws, s.drawn)

/-- One bus access at its own cycle count (R18, R25, R274), through R101, R102 or R111. -/
def busAccess (a : BusAccess) (s : State) : State :=
  match a.dir with
  | .read => busRead a.addr (s.atCount a.now)
  | .write => busWrite a.addr a.data (s.atCount a.now)
  | .fetch => busRead a.addr (s.atCount a.now)

/-- The byte an access returned, if it was a read. -/
def Ret.readByte : Ret → List Byte
  | .byte v => [v]
  | _ => []

/-- The accesses of an instruction in order, and the bytes its reads returned. -/
def runAccesses : List BusAccess → State → State × List Byte
  | [], s => (s, [])
  | a :: rest, s =>
    let s' := busAccess a s
    let r := runAccesses rest s'
    (r.1, s'.ret.readByte ++ r.2)

/-- `ExecuteOneInstruction()` (R274): the instruction's accesses, then the new cycle count. -/
def executeInstr (s : State) : State :=
  let n := nextInstr s
  let r := runAccesses n.1.accesses n.2
  (r.1.atCount n.1.cycles).returning (.bytes r.2)

/-! ## Pacing -/

/-- The host's wall clock (R276): the oldest supplied reading, else a free value (log 15). -/
def wallClock (s : State) : Int × State :=
  match s.wall with
  | w :: rest => (w, { s with wall := rest })
  | [] => (freeWallNs s.draws, s.drawn)

/-- The pacing check's new reference and the wait it asks for (R276), from the simulated time, the wall clock and the
reference, all in nanoseconds: resynchronise beyond the drift threshold, else wait a positive difference. -/
def paceDecision (sim wall ref : Int) : Int × Int :=
  let d := sim - (wall - ref)
  if paceDriftNs < d ∨ d < -paceDriftNs then (wall - sim, 0)
  else if 0 < d then (ref, d)
  else (ref, 0)

/-- `Pace()` (R276): every PACE_EVERY instructions, one check. Nothing of the block reads what it writes. -/
def paceStep (s : State) : State :=
  let count := (s.sched.pace.count + 1) % paceEvery
  if count = 0 then
    let w := wallClock s
    let r := paceDecision (s.now.toNat * cycleNs) w.1 s.sched.pace.refNs
    w.2.withSched { w.2.sched with pace := ⟨0, r.1, r.2⟩ }
  else
    s.withSched { s.sched with pace := { s.sched.pace with count := count } }

/-! ## The iteration -/

/-- `Iteration()` (R270): drain, tick at the current count, Break check, one instruction, pacing. -/
def iteration (s : State) : State :=
  let s₁ := drainEvents s
  paceStep (executeInstr (breakCheck (tick s₁.now s₁)))

/-- SCHED_ITERATION (R270). -/
def execSchedIteration (s : State) : Result := .next (iteration s)

/-- SCHED_DRAIN (R271). -/
def execSchedDrain (s : State) : Result := .next ((drainEvents s).returning .nothing)

/-- SCHED_BREAK_CHECK (R272). -/
def execSchedBreakCheck (s : State) : Result := .next ((breakCheck s).returning .nothing)

/-- SCHED_TICK (R273): the tick at the CPU's current cycle count. -/
def execSchedTick (s : State) : Result := .next ((tick s.now s).returning .nothing)

/-- SCHED_EXECUTE (R274). -/
def execSchedExecute (s : State) : Result := .next (executeInstr s)

end Sys2Proof.Machine
end

