-- ==== Sys2Proof/Machine/Video.lean ====
section
/-! DEFINITION. The video generator (46_video.md): the text and graphics pixels and the raster, pure functions of RAM and
Port A. -/

namespace Sys2Proof.Machine

open Sys2Proof.Config

/-! ## Text path -/

/-- The address of the character cell that shows the pixel (x, y) (R252). -/
def textAddress (p : Params) (x y : Nat) : Nat := p.videoBase + y / cellH * textCols + x / cellW

/-- The glyph row of a character on a cell line (R253): blank where FONT_ROW gives none. -/
def glyphPattern (p : Params) (ch : Byte) (charLine : Fin 12) : Byte :=
  match p.fontRow[charLine] with
  | some r => p.font[(ch.setWidth 6).toFin][r]
  | none => 0x00#8

/-- A glyph pixel (R253): the pattern's bit, bit 7 leftmost, XOR the inverse bit. -/
def glyphPixel (p : Params) (ch : Byte) (charLine : Fin 12) (px : Nat) : Rgba :=
  if (glyphPattern p ch charLine).getLsbD (7 - px) ^^ ch.getLsbD 7 then p.textLight else p.textDark

/-- The semigraphics block bit of a character at a cell line and pixel column (R254). -/
def semigraphicsOn (ch : Byte) (charLine px : Nat) : Bool :=
  let pair := ch >>> (2 * (2 - charLine / 4)) &&& 0x3#8
  if px < 4 then pair.getLsbD 1 else pair.getLsbD 0

/-- The index of an inverse bit in SG_ON and SG_OFF (R254). -/
def inverseIndex (ch : Byte) : Fin 2 := if ch.getLsbD 7 then 1 else 0

/-- A semigraphics pixel (R254). -/
def semigraphicsPixel (p : Params) (ch : Byte) (charLine px : Nat) : Rgba :=
  if semigraphicsOn ch charLine px then p.paletteSg[p.sgOn[inverseIndex ch]] else p.paletteSg[p.sgOff[inverseIndex ch]]

/-- A pixel of the text path (R252): bit 6 of the character selects semigraphics. -/
def textPixel (p : Params) (ram : Memory) (x y : Nat) : Rgba :=
  let ch := ram.read (textAddress p x y)
  if ch.getLsbD 6 then semigraphicsPixel p ch (y % cellH) (x % cellW)
  else glyphPixel p ch ⟨y % cellH, Nat.mod_lt _ (by decide)⟩ (x % cellW)

/-! ## Graphics path -/

/-- A graphics submode's (columns, lines, colorBits) (R255). -/
structure GraphicsMode where
  cols  : Nat
  lines : Nat
  bpp   : Nat
  deriving DecidableEq, Repr

/-- The eight submodes in the source's order (R255). -/
def graphicsMode (m : BitVec 3) : GraphicsMode :=
  match m.toNat with
  | 0 => ⟨64, 64, 2⟩
  | 1 => ⟨128, 64, 1⟩
  | 2 => ⟨128, 64, 2⟩
  | 3 => ⟨128, 96, 1⟩
  | 4 => ⟨128, 96, 2⟩
  | 5 => ⟨128, 192, 1⟩
  | 6 => ⟨128, 192, 2⟩
  | _ => ⟨256, 192, 1⟩

/-- The logical column of an output pixel (R256). -/
def logicalX (g : GraphicsMode) (x : Nat) : Nat := x / (rasterW / g.cols)

/-- The logical line of an output pixel (R256). -/
def logicalY (g : GraphicsMode) (y : Nat) : Nat := y / (rasterH / g.lines)

/-- Pixels per byte (R256). -/
def pixelsPerByte (g : GraphicsMode) : Nat := 8 / g.bpp

/-- The address of the byte that holds the pixel (x, y) (R256). -/
def graphicsAddress (p : Params) (g : GraphicsMode) (x y : Nat) : Nat :=
  p.videoBase + logicalY g y * (g.cols / pixelsPerByte g) + logicalX g x / pixelsPerByte g

/-- The bits of logical pixel k of a byte, most significant first, shifted down (R256); the palette takes bpp of them. -/
def pixelBits (g : GraphicsMode) (b : Byte) (k : Nat) : Byte := b >>> (8 - g.bpp * (k + 1))

/-- A pixel of the graphics path (R256). -/
def graphicsPixel (p : Params) (ram : Memory) (g : GraphicsMode) (x y : Nat) : Rgba :=
  let v := pixelBits g (ram.read (graphicsAddress p g x y)) (logicalX g x % pixelsPerByte g)
  if g.bpp = 1 then p.palette2[(v.setWidth 1).toFin] else p.palette4[(v.setWidth 2).toFin]

/-! ## The raster -/

/-- `Pixel(x, y)` (R250, R251): the path that Port A's bit 4 selects. -/
def pixel (p : Params) (ram : Memory) (portA : Byte) (x y : Nat) : Rgba :=
  if graphicsSelected portA then graphicsPixel p ram (graphicsMode (submodeOf portA)) x y else textPixel p ram x y

/-- `snapshot()` (R250): `raster[y][x] = Pixel(x, y)`. -/
def snapshot (p : Params) (ram : Memory) (portA : Byte) : List (List Rgba) :=
  (List.range rasterH).map fun y => (List.range rasterW).map fun x => pixel p ram portA x y

/-- VDU_FIELDSYNC (R240). -/
def execVduFieldsync (c : Cycle) (s : State) : Result := .next (s.returning (.flag (fieldSync s.cfg c)))

/-- VDU_SNAPSHOT (R250). -/
def execVduSnapshot (s : State) : Result := .next (s.returning (.raster (snapshot s.cfg s.ram s.pia.portA)))

end Sys2Proof.Machine
end

