-- ==== Sys2Proof/Machine/Dispatch.lean ====
section
/-! DEFINITION. The meaning of every instruction, one arm per constructor of Instr. -/

namespace Sys2Proof.Machine

def exec (i : Instr) (s : State) : Host.Outcome State Fault Refusal :=
  match i with
  | .ramRead addr => Sys2Proof.Machine.execRamRead addr s
  | .ramWrite addr data => Sys2Proof.Machine.execRamWrite addr data s
  | .romRead addr => Sys2Proof.Machine.execRomRead addr s
  | .romWrite addr data => Sys2Proof.Machine.execRomWrite addr data s
  | .unmappedRead addr => Sys2Proof.Machine.execUnmappedRead addr s
  | .unmappedWrite addr data => Sys2Proof.Machine.execUnmappedWrite addr data s
  | .fdcStatusRead addr => Sys2Proof.Machine.execFdcStatusRead addr s
  | .fdcCommandWrite addr data => Sys2Proof.Machine.execFdcCommandWrite addr data s
  | .fdcResultRead addr => Sys2Proof.Machine.execFdcResultRead addr s
  | .fdcParamWrite addr data => Sys2Proof.Machine.execFdcParamWrite addr data s
  | .fdcResetRead addr => Sys2Proof.Machine.execFdcResetRead addr s
  | .fdcResetWrite addr data => Sys2Proof.Machine.execFdcResetWrite addr data s
  | .fdcUnusedRead addr => Sys2Proof.Machine.execFdcUnusedRead addr s
  | .fdcUnusedWrite addr data => Sys2Proof.Machine.execFdcUnusedWrite addr data s
  | .fdcDataRead addr => Sys2Proof.Machine.execFdcDataRead addr s
  | .fdcDataWrite addr data => Sys2Proof.Machine.execFdcDataWrite addr data s
  | .fdcHoleRead addr => Sys2Proof.Machine.execFdcHoleRead addr s
  | .fdcHoleWrite addr data => Sys2Proof.Machine.execFdcHoleWrite addr data s
  | .piaARead addr => Sys2Proof.Machine.execPiaARead addr s
  | .piaAWrite addr data => Sys2Proof.Machine.execPiaAWrite addr data s
  | .piaBRead addr => Sys2Proof.Machine.execPiaBRead addr s
  | .piaBWrite addr data => Sys2Proof.Machine.execPiaBWrite addr data s
  | .piaCRead addr => Sys2Proof.Machine.execPiaCRead addr s
  | .piaCWrite addr data => Sys2Proof.Machine.execPiaCWrite addr data s
  | .piaCtrlRead addr => Sys2Proof.Machine.execPiaCtrlRead addr s
  | .piaCtrlWrite addr data => Sys2Proof.Machine.execPiaCtrlWrite addr data s
  | .fetch addr => Sys2Proof.Machine.execFetch addr s
  | .fdcReadData drive => Sys2Proof.Machine.execFdcReadData drive s
  | .fdcSeek drive => Sys2Proof.Machine.execFdcSeek drive s
  | .fdcReadDriveStatus drive => Sys2Proof.Machine.execFdcReadDriveStatus drive s
  | .fdcSpecify drive => Sys2Proof.Machine.execFdcSpecify drive s
  | .fdcWriteSpecial drive => Sys2Proof.Machine.execFdcWriteSpecial drive s
  | .fdcUnknown drive opcode => Sys2Proof.Machine.execFdcUnknown drive opcode s
  | .fdcTick now => Sys2Proof.Machine.execFdcTick now s
  | .keyEvent code => Sys2Proof.Machine.execKeyEvent code s
  | .kbdScan col => Sys2Proof.Machine.execKbdScan col s
  | .kbdBreak => Sys2Proof.Machine.execKbdBreak s
  | .kbdRepeat => Sys2Proof.Machine.execKbdRepeat s
  | .vduFieldsync c => Sys2Proof.Machine.execVduFieldsync c s
  | .vduSnapshot => Sys2Proof.Machine.execVduSnapshot s
  | .schedIteration => Sys2Proof.Machine.execSchedIteration s
  | .schedDrain => Sys2Proof.Machine.execSchedDrain s
  | .schedBreakCheck => Sys2Proof.Machine.execSchedBreakCheck s
  | .schedTick => Sys2Proof.Machine.execSchedTick s
  | .schedExecute => Sys2Proof.Machine.execSchedExecute s

end Sys2Proof.Machine
end

