-- ==== Sys2Proof/Machine/Step.lean ====
section
/-! DEFINITION. One step of the machine: the oldest pending line of the schedule, or, when none is pending, one iteration of
the scheduler (R270, R277). -/

namespace Sys2Proof.Machine

/-- The state in which a line's operation runs: the line taken off, the CPU's count as the line gives it, and never below an
earlier one (R25, R92). -/
def State.taking (s : State) (l : Line) (rest : List Line) : State :=
  { s.atCount l.now with schedule := rest }

/-- One step. A line that is no word of its format is refused by name (log 5). -/
def step (s : State) : Host.Outcome State Fault Refusal :=
  match s.schedule with
  | [] => exec .schedIteration s
  | l :: rest =>
    match decode s.cfg l.word with
    | .ok i => exec i (s.taking l rest)
    | .error e => .refused (.malformedLine e)

/-- The state with a row's word as the next pending line, at the current cycle count. -/
def State.withFetchWord (s : State) (nbits w : Nat) : State :=
  { s with schedule := ⟨s.now, tableOpWord nbits w⟩ :: s.schedule }

end Sys2Proof.Machine
end

