-- ==== Sys2Proof/Safety.lean ====
section
/-! DEFINITION. The terms claims use: the invariant of the machine, the domain of the cycle count, and sequences of
operations. -/

namespace Sys2Proof.Machine

open Sys2Proof.Config

/-- What every reachable state keeps: canonical memories with RAM inside its range (R23), the legal values of the status
(R27) and the result (R28), the ordered and clamped cursor (R31), the bounds of R26, R37 and R40, and a cycle count that
is not below the least one it could show (R25). -/
structure State.Inv (s : State) : Prop where
  ramWf         : s.ram.wf
  romWf         : s.rom.wf
  ramInside     : ∀ c ∈ s.ram, c.1 ≤ ramHi
  statusLegal   : s.fdc.status ∈ [statusIdle, statusBusy s.cfg, statusTransfer s.cfg, statusComplete s.cfg]
  resultLegal   : s.fdc.result ∈ [0x00#8, 0x90#8, 0x92#8, 0x94#8, 0x96#8]
  cursorOrdered : s.fdc.byteIndex ≤ s.fdc.endIndex
  cursorInImage : s.fdc.endIndex ≤ s.image.length
  countdownMax  : s.fdc.driveCountdown ≤ driveSpinup
  countMasked   : s.fdc.sectorCount &&& ~~~s.cfg.countMask = 0#8
  queueBound    : s.kbd.queue.length ≤ s.cfg.queueCap
  paceBound     : s.sched.pace.count < paceEvery
  countOrdered  : s.countFloor.toNat ≤ s.now.toNat

/-- The domain of the cycle count (R166): adding the byte latency does not leave u64. -/
abbrev InDomain (c : Cycle) : Prop := c.toNat + byteLatency < 2 ^ 64

/-- The result-full flag is none of the busy, interrupt and non-DMA flags, as in the defaults of rule R27. -/
abbrev FlagsApart (p : Params) : Prop :=
  resultFull p (statusBusy p) = false ∧ resultFull p (statusTransfer p) = false ∧
    resultFull p (statusComplete p) = true

/-- The operations of a list, one after another, stopping at the first that gives no next state. -/
def execAll : List Instr → State → Result
  | [], s => .next s
  | i :: rest, s =>
    match exec i s with
    | .next t => execAll rest t
    | .fault r => .fault r
    | .refused r => .refused r

/-- The read protocol (R188) as the rounds of a list, each a tick at its first cycle count and then a data read at its
second: the state at the end and the bytes read. -/
def drainRounds (addr : Addr) : List (Cycle × Cycle) → State → Host.Outcome (State × List Byte) Fault Refusal
  | [], s => .next (s, [])
  | r :: rest, s =>
    match execAll [.fdcTick r.1] s with
    | .fault e => .fault e
    | .refused e => .refused e
    | .next t =>
      match exec (.fdcDataRead addr) (t.withNow r.2) with
      | .fault e => .fault e
      | .refused e => .refused e
      | .next u =>
        match drainRounds addr rest u with
        | .fault e => .fault e
        | .refused e => .refused e
        | .next (v, bytes) => .next (v, u.ret.readByte ++ bytes)

/-- Rounds whose every tick comes at or after the deadline armed before it: `d` for the first, the data read's count plus
the byte latency for each later one, all inside the domain (R340). -/
def RoundsSpaced : Cycle → List (Cycle × Cycle) → Prop
  | _, [] => True
  | d, r :: rest => d.toNat ≤ r.1.toNat ∧ InDomain r.2 ∧ RoundsSpaced (r.2 + BitVec.ofNat 64 byteLatency) rest

/-- The calls of one kind made so far. -/
def State.emits (s : State) (e : Emit) : Nat := s.emitted.count e

end Sys2Proof.Machine
end

