-- ==== Sys2Proof/Certificates/Slice0/Obligations.lean ====
section
/-! DEFINITION. The statements for the provers. Rule numbers are those of spec/; where a statement rests on one of the spec's
own decisions (D1 to D44 of 92_eei_decisions.md) or on a choice of the model (a log entry), its docstring names it. -/

open Sys2Proof Sys2Proof.Machine Sys2Proof.Config

/-! ## Reset and invariants -/

/-- The power-on state, and `State.reset` as one of them. That `State.reset` takes the default parameters and empty RAM, ROM and
image is the model's choice (logs 1, 3 and 4). The zero values and R332's one CPU reset before the first iteration are the
spec's own choice (D24). -/
def Obligations.PowerOnValues : Prop :=
  State.reset = State.powerOn defaultParams [] [] [] ∧
  ∀ (cfg : Params) (ram rom : Memory) (image : List Byte) (k : Fin 61),
    let s := State.powerOn cfg ram rom image
    s.fdc = { command := 0, drive := 0, status := 0, result := 0, selectedRegister := 0, paramIndex := 0, track := 0,
              sector := 0, sectorCount := 0, byteIndex := 0, endIndex := 0, nextByte := 0, driveCountdown := 0,
              driveReady := false, deadline := 0 } ∧
    s.pia = { portA := 0, portB := 0, portC := 0, control := 0 } ∧
    s.kbd.pressed[k] = false ∧ s.kbd.queue = [] ∧ s.sched.breakPrev = false ∧ s.emitted = [.cpuReset] ∧
    s.ram = ram ∧ s.rom = rom ∧ s.image = image

/-- Every power-on state whose arrays are canonical meets the invariant, `State.reset` among them. -/
def Obligations.PowerOnMeetsInvariant : Prop :=
  State.reset.Inv ∧
  ∀ (cfg : Params) (ram rom : Memory) (image : List Byte),
    ram.wf → rom.wf → (∀ c ∈ ram, c.1 ≤ ramHi) → (State.powerOn cfg ram rom image).Inv

/-- Every step keeps the invariant: canonical memories, RAM inside its range (R23), the four status values (R27), the result
values (R28), the ordered and clamped cursor (R31), the bounds of R26, R37 and R40, and a count that is not below its floor
(R25; log 7). -/
def Obligations.StepKeepsInvariant : Prop :=
  ∀ s t : State, s.Inv → step s = .next t → t.Inv

/-- No step changes the decode (R113), nor ROM or the disk image, which are immutable after load. -/
def Obligations.StepKeepsDecodeRomAndImage : Prop :=
  ∀ s t : State, step s = .next t →
    t.cfg = s.cfg ∧ t.rom = s.rom ∧ t.image = s.image ∧
      (∀ a, region t.cfg a = region s.cfg a) ∧ (∀ a, target t.cfg a = target s.cfg a)

/-! ## Steps and encoding -/

/-- A step takes the oldest pending line, at the count the line gives, and runs the instruction its word decodes to; a line
that decodes to none is refused by name; with no line pending the step is one iteration. The schedule is the model's
convention (log 5), and so is a count below the floor, which is read as the floor (log 7). -/
def Obligations.StepRunsThePendingLine : Prop :=
  (∀ (s : State) (l : Line) (rest : List Line) (i : Instr), s.schedule = l :: rest → decode s.cfg l.word = .ok i →
    let c := if s.countFloor.toNat ≤ l.now.toNat then l.now else s.countFloor
    step s = exec i { s with schedule := rest, now := c, countFloor := c }) ∧
  (∀ (s : State) (l : Line) (rest : List Line) (e : DecodeError), s.schedule = l :: rest → decode s.cfg l.word = .error e →
    step s = .refused (.malformedLine e)) ∧
  (∀ s : State, s.schedule = [] → step s = exec .schedIteration s)

/-- No operation faults, stalls or refuses (R300): each answers a next state, in every state and for all operands. -/
def Obligations.EveryOperationCompletes : Prop :=
  ∀ (i : Instr) (s : State), ∃ t, exec i s = .next t

/-- Decoding an encoded well-formed instruction gives it back, for every placement of the windows. -/
def Obligations.DecodeInvertsEncode : Prop :=
  ∀ (p : Params) (i : Instr), i.WellFormed p = true → decode p (encode i) = .ok i

/-- What the decoder answers is well formed: its row is the one that the address's region and port select (R81), and
FDC_UNKNOWN is none of the five opcodes (R88). -/
def Obligations.DecodedIsWellFormed : Prop :=
  ∀ (p : Params) (w : OpWord) (i : Instr), decode p w = .ok i → i.WellFormed p = true

/-- Every (dir, addr, data) resolves (R112): its word decodes to a well-formed row, and that row completes in every state. -/
def Obligations.EveryBusTripleResolves : Prop :=
  ∀ (p : Params) (dir : Dir) (addr : Addr) (data : Byte),
    ∃ i, decode p (busWord dir addr data) = .ok i ∧ i.WellFormed p = true ∧ ∀ s : State, ∃ t, exec i s = .next t

/-- Words written out from R80 to R88: a status read, a command write, a RAM write, a keyboard scan, a Port C alias, an unmapped
read, a ROM fetch, and four command bytes. The order of a bus word's bytes and its direction bytes 0, 1 and 2 are the model's
choice (log 5), and the placement of the windows is the default one (log 1). -/
def Obligations.WrittenWordsDecode : Prop :=
  decode defaultParams (.bus [0x00, 0x0A, 0x00, 0x00]) = .ok (.fdcStatusRead 0x0A00) ∧
  decode defaultParams (.bus [0x08, 0x0A, 0x2C, 0x01]) = .ok (.fdcCommandWrite 0x0A08 0x2C) ∧
  decode defaultParams (.bus [0x34, 0x12, 0x5A, 0x01]) = .ok (.ramWrite 0x1234 0x5A) ∧
  decode defaultParams (.bus [0x01, 0xB0, 0x00, 0x00]) = .ok (.piaBRead 0xB001) ∧
  decode defaultParams (.bus [0xFE, 0xB3, 0x00, 0x00]) = .ok (.piaCRead 0xB3FE) ∧
  decode defaultParams (.bus [0x00, 0xB8, 0x00, 0x00]) = .ok (.unmappedRead 0xB800) ∧
  decode defaultParams (.bus [0xFC, 0xFF, 0x00, 0x02]) = .ok (.fetch 0xFFFC) ∧
  decode defaultParams (.fdcCmd [0xD3]) = .ok (.fdcReadData 3) ∧
  decode defaultParams (.fdcCmd [0x69]) = .ok (.fdcSeek 1) ∧
  decode defaultParams (.fdcCmd [0x3A]) = .ok (.fdcWriteSpecial 0) ∧
  decode defaultParams (.fdcCmd [0x0B]) = .ok (.fdcUnknown 0 0x0B)

/-- The command byte (R84): the top two bits select the drive and the low six the opcode, for every opcode; a byte on the
command port, through whichever alias, does what its own row does. -/
def Obligations.CommandByteSelectsDriveAndOpcode : Prop :=
  ∀ (p : Params) (addr : Addr) (drive : BitVec 2) (opcode : BitVec 6) (s : State), ∃ i t,
    decode p (.fdcCmd [drive ++ opcode]) = .ok i ∧ exec i s = .next t ∧
    exec (.fdcCommandWrite addr (drive ++ opcode)) s = .next t ∧ t.fdc.drive = drive ∧ t.fdc.command = opcode

/-! ## Address decoder and memory -/

/-- The address map under the default placement (R66, D2, D5), and what each address of the two windows selects: with k the
offset modulo 8, the FDC's port k, or a hole for k from 5 (R82, R105, R132; D3), and with k the offset modulo 4, the PIA's
register k (R83, R106; D4), each as its target and as the rows that its read word and write word decode to (R81). The
placement is log 1's. -/
def Obligations.DefaultAddressMap : Prop :=
  ∀ (a : Addr) (d : Byte),
    (region defaultParams a = .fdc ↔ 0x0A00 ≤ a.toNat ∧ a.toNat ≤ 0x0AFF) ∧
    (region defaultParams a = .ram ↔ a.toNat ≤ 0x09FF ∨ (0x0B00 ≤ a.toNat ∧ a.toNat ≤ 0x9FFF)) ∧
    (region defaultParams a = .pia ↔ 0xB000 ≤ a.toNat ∧ a.toNat ≤ 0xB3FF) ∧
    (region defaultParams a = .unmapped ↔ 0xB400 ≤ a.toNat ∧ a.toNat ≤ 0xBFFF) ∧
    (region defaultParams a = .rom ↔ (0xA000 ≤ a.toNat ∧ a.toNat ≤ 0xAFFF) ∨ 0xC000 ≤ a.toNat) ∧
    (region defaultParams a = .ram → target defaultParams a = .ram ∧
      decode defaultParams (busWord .read a d) = .ok (.ramRead a) ∧ decode defaultParams (busWord .write a d) = .ok (.ramWrite a d)) ∧
    (region defaultParams a = .rom → target defaultParams a = .rom ∧
      decode defaultParams (busWord .read a d) = .ok (.romRead a) ∧ decode defaultParams (busWord .write a d) = .ok (.romWrite a d)) ∧
    (region defaultParams a = .unmapped → target defaultParams a = .unmapped ∧
      decode defaultParams (busWord .read a d) = .ok (.unmappedRead a) ∧
      decode defaultParams (busWord .write a d) = .ok (.unmappedWrite a d)) ∧
    (∀ n k : Nat, n < 32 → k < 8 → a.toNat = 0x0A00 + 8 * n + k →
      some (target defaultParams a, decode defaultParams (busWord .read a d), decode defaultParams (busWord .write a d)) =
        [(Target.fdc .command, .ok (.fdcStatusRead a), .ok (.fdcCommandWrite a d)),
         (Target.fdc .parameter, .ok (.fdcResultRead a), .ok (.fdcParamWrite a d)),
         (Target.fdc .resetPort, .ok (.fdcResetRead a), .ok (.fdcResetWrite a d)),
         (Target.fdc .unused, .ok (.fdcUnusedRead a), .ok (.fdcUnusedWrite a d)),
         (Target.fdc .data, .ok (.fdcDataRead a), .ok (.fdcDataWrite a d)),
         (Target.fdcHole, .ok (.fdcHoleRead a), .ok (.fdcHoleWrite a d)),
         (Target.fdcHole, .ok (.fdcHoleRead a), .ok (.fdcHoleWrite a d)),
         (Target.fdcHole, .ok (.fdcHoleRead a), .ok (.fdcHoleWrite a d))][k]?) ∧
    (∀ n k : Nat, n < 256 → k < 4 → a.toNat = 0xB000 + 4 * n + k →
      some (target defaultParams a, decode defaultParams (busWord .read a d), decode defaultParams (busWord .write a d)) =
        [(Target.pia .portA, .ok (.piaARead a), .ok (.piaAWrite a d)),
         (Target.pia .portB, .ok (.piaBRead a), .ok (.piaBWrite a d)),
         (Target.pia .portC, .ok (.piaCRead a), .ok (.piaCWrite a d)),
         (Target.pia .control, .ok (.piaCtrlRead a), .ok (.piaCtrlWrite a d))][k]?)

/-- An instruction fetch is the data read of the same address (R111), with every side effect: at the FDC data port it is a
data read, at Port B a keyboard scan. -/
def Obligations.FetchIsRead : Prop :=
  ∀ (addr : Addr) (data : Byte) (s : State),
    exec (.fetch addr) s = exec (busRow s.cfg .read addr data) s ∧
    (target s.cfg addr = .fdc .data → exec (.fetch addr) s = exec (.fdcDataRead addr) s) ∧
    (target s.cfg addr = .pia .portB → exec (.fetch addr) s = exec (.piaBRead addr) s)

/-- A RAM write stores its byte, which the next read of the address and a fetch of it return, and changes no other byte and
nothing else (R104, R72). -/
def Obligations.RamWriteStoresOneByte : Prop :=
  ∀ (addr : Addr) (data : Byte) (s : State), s.Inv →
    ∃ m, exec (.ramWrite addr data) s = .next { s with ram := m, ret := .nothing } ∧
      Memory.read m addr.toNat = data ∧
      (∀ b, b ≠ addr.toNat → Memory.read m b = Memory.read s.ram b) ∧ m.wf ∧
      exec (.ramRead addr) { s with ram := m, ret := .nothing } = .next { s with ram := m, ret := .byte data } ∧
      (target s.cfg addr = .ram →
        exec (.fetch addr) { s with ram := m, ret := .nothing } = .next { s with ram := m, ret := .byte data })

/-- RAM and ROM reads return the stored byte and change nothing; reads of the unmapped window and of the FDC's holes return
0x00; writes to the holes are discarded (R103, R107, R109, R132, R133). The addresses of each row are those of its region, a
hole's the FDC offsets from 5. -/
def Obligations.PlainReadsAndHoles : Prop :=
  ∀ (addr : Addr) (data : Byte) (s : State),
    exec (.ramRead addr) s = .next { s with ret := .byte (Memory.read s.ram addr.toNat) } ∧
    exec (.romRead addr) s = .next { s with ret := .byte (Memory.read s.rom addr.toNat) } ∧
    exec (.unmappedRead addr) s = .next { s with ret := .byte 0x00 } ∧
    exec (.fdcHoleRead addr) s = .next { s with ret := .byte 0x00 } ∧
    exec (.fdcHoleWrite addr data) s = .next { s with ret := .nothing } ∧
    (region s.cfg addr = .ram → busRow s.cfg .read addr data = .ramRead addr) ∧
    (region s.cfg addr = .rom → busRow s.cfg .read addr data = .romRead addr) ∧
    (region s.cfg addr = .unmapped → busRow s.cfg .read addr data = .unmappedRead addr) ∧
    (region s.cfg addr = .fdc → 5 ≤ ((addr.toNat - s.cfg.fdcBase) &&& s.cfg.fdcMask) →
      busRow s.cfg .read addr data = .fdcHoleRead addr ∧ busRow s.cfg .write addr data = .fdcHoleWrite addr data)

/-- Discarded writes: ROM (R110, D43), the unmapped window (R108, D39), the FDC's data port (D15) and unused port (D16). The
choices are the spec's own. -/
def Obligations.DiscardedWrites : Prop :=
  ∀ (addr : Addr) (data : Byte) (s : State),
    exec (.romWrite addr data) s = .next { s with ret := .nothing } ∧
    exec (.unmappedWrite addr data) s = .next { s with ret := .nothing } ∧
    exec (.fdcDataWrite addr data) s = .next { s with ret := .nothing } ∧
    exec (.fdcUnusedWrite addr data) s = .next { s with ret := .nothing }

/-- RAM is written by RAM writes alone, and by the CPU's instructions, which are made of them (R23); the cycle count is never
written by the block, only by an instruction of the CPU collaborator, and no step lets the count go below one it has shown,
but through a CPU reset (R25; the floor that holds this is the model's, log 7, and its return to 0 at a CPU reset follows D34). -/
def Obligations.WritersOfRamAndOfTheCycleCount : Prop :=
  (∀ (i : Instr) (s t : State), exec i s = .next t → i ≠ .schedExecute → i ≠ .schedIteration →
    t.now = s.now ∧ (i ≠ .schedBreakCheck → t.countFloor = s.countFloor) ∧
      ((∀ addr data, i ≠ .ramWrite addr data) → t.ram = s.ram)) ∧
  (∀ (i : Instr) (s t : State), exec i s = .next t → i = .schedExecute ∨ i = .schedIteration → t.countFloor = t.now) ∧
  (∀ s t : State, step s = .next t →
    s.countFloor.toNat ≤ t.countFloor.toNat ∨ t.emits .cpuReset = s.emits .cpuReset + 1)

/-! ## FDC ports -/

/-- A command write sets command, drive and a zero parameter index; Read Drive Status alone also sets the result; status,
deadline and cursor stay, so a running transfer goes on (R122; D10 and D11 are the spec's own). -/
def Obligations.CommandWriteEffect : Prop :=
  ∀ (addr : Addr) (data : Byte) (s : State),
    exec (.fdcCommandWrite addr data) s = .next
      { s with
        fdc := { s.fdc with
          command := data.extractLsb' 0 6, drive := data.extractLsb' 6 2, paramIndex := 0
          result := if data.extractLsb' 0 6 = 0x2C#6 then driveStatusByte s.fdc.driveReady s.fdc.track else s.fdc.result }
        ret := .nothing }

/-- A parameter write counts one more parameter and keeps command, drive, result, latch and ready mark, every array, the PIA,
the keyboard and the calls made; it sets status only by starting a transfer, at Read Data's third parameter (R124, R152).
Three clauses are the spec's own choices: the index counts without a bound (D9), the ready mark stays (D12, R163), and the
latch stays at the start of a transfer (D13). -/
def Obligations.ParameterWriteFrame : Prop :=
  ∀ (addr : Addr) (data : Byte) (s : State),
    ∃ t, exec (.fdcParamWrite addr data) s = .next t ∧
      t = { s with fdc := t.fdc, ret := .nothing, draws := t.draws } ∧
      t.fdc.paramIndex = s.fdc.paramIndex + 1 ∧ t.fdc.command = s.fdc.command ∧ t.fdc.drive = s.fdc.drive ∧
      t.fdc.result = s.fdc.result ∧ t.fdc.nextByte = s.fdc.nextByte ∧ t.fdc.driveReady = s.fdc.driveReady ∧
      (¬ (s.fdc.command = opReadData ∧ s.fdc.paramIndex = 2) →
        t.fdc.status = s.fdc.status ∧ t.fdc.deadline = s.fdc.deadline ∧ t.fdc.byteIndex = s.fdc.byteIndex ∧
        t.fdc.endIndex = s.fdc.endIndex ∧ t.draws = s.draws)

/-- Parameters past a command's count only count: they never trigger an action again (R160, R165; D9 is the spec's own). -/
def Obligations.ExtraParametersAreIgnored : Prop :=
  ∀ (addr : Addr) (data : Byte) (s : State),
    (s.fdc.command = opReadData ∧ 3 ≤ s.fdc.paramIndex) ∨ (s.fdc.command = opSeek ∧ 1 ≤ s.fdc.paramIndex) ∨
      (s.fdc.command = opWriteSpecial ∧ 2 ≤ s.fdc.paramIndex) ∨ s.fdc.command = opReadDriveStatus →
    exec (.fdcParamWrite addr data) s = .next
      { s with fdc := { s.fdc with paramIndex := s.fdc.paramIndex + 1 }, ret := .nothing }

/-- Data reads with a free value, whatever it is. With result-full set the read clears the status and nothing else (R125);
its byte is a free value (D14, log 8). Outside the domain of R166 any other read still returns the latch and sets busy; its
deadline is a free value (the model's choice, log 9). -/
def Obligations.DataReadsWithAFreeValue : Prop :=
  ∀ (addr : Addr) (s : State),
    (s.fdc.status &&& s.cfg.stResultFull ≠ 0 →
      ∃ v, exec (.fdcDataRead addr) s = .next
        { s with fdc := { s.fdc with status := 0x00 }, ret := .byte v, draws := s.draws + 1 }) ∧
    (s.fdc.status &&& s.cfg.stResultFull = 0 → ¬ InDomain s.now →
      ∃ d, exec (.fdcDataRead addr) s = .next
        { s with fdc := { s.fdc with status := s.cfg.stBusy, deadline := d }, ret := .byte s.fdc.nextByte,
                 draws := s.draws + 1 })

/-- Any other data read returns the latch, sets the status to busy and arms `now + 400` in place of any armed deadline; that
deadline is not 0; and from a cursor at its end the first tick at or after it completes with one NMI (R126). The cycle count
is in the domain of R166. -/
def Obligations.DataReadReturnsLatchAndRearms : Prop :=
  ∀ (addr : Addr) (s : State), s.fdc.status &&& s.cfg.stResultFull = 0 → InDomain s.now →
    ∃ t, exec (.fdcDataRead addr) s = .next t ∧
      t = { s with fdc := { s.fdc with status := s.cfg.stBusy, deadline := s.now + 400 }, ret := .byte s.fdc.nextByte } ∧
      t.fdc.deadline.toNat = s.now.toNat + 400 ∧
      (s.fdc.endIndex ≤ s.fdc.byteIndex → ∀ c : Cycle, s.now.toNat + 400 ≤ c.toNat →
        ∃ u, exec (.fdcTick c) t = .next u ∧ u.fdc.status = s.cfg.stResultFull ||| s.cfg.stIrq ∧ u.fdc.result = 0x00 ∧
          u.emitted = s.emitted ++ [.nmi])

/-- An early data read returns the same latch again and pushes the byte out: no tick before its `now + 400` latches,
completes or calls the NMI, whatever deadline was armed before (R341). -/
def Obligations.EarlyDataReadPostponesTheByte : Prop :=
  ∀ (addr : Addr) (s : State) (c : Cycle), s.fdc.status &&& s.cfg.stResultFull = 0 → InDomain s.now →
    c.toNat < s.now.toNat + 400 →
    ∃ t, execAll [.fdcDataRead addr, .fdcTick c] s = .next t ∧ t.fdc.nextByte = s.fdc.nextByte ∧
      t.fdc.byteIndex = s.fdc.byteIndex ∧ t.emitted = s.emitted ∧ t.fdc.deadline.toNat = s.now.toNat + 400

/-- The FDC ports beside command, parameter and data. Status and result reads return the live registers and clear nothing
(R121, R123; D44). A reset-port write does nothing in mode ignore and resets the FDC alone in mode reset; reset-port and
unused-port reads return a free value and change nothing (R128 to R130; D16, log 8). These choices are the spec's own. -/
def Obligations.StatusResultResetAndUnusedPorts : Prop :=
  ∀ (addr : Addr) (data : Byte) (s : State),
    exec (.fdcStatusRead addr) s = .next { s with ret := .byte s.fdc.status } ∧
    exec (.fdcResultRead addr) s = .next { s with ret := .byte s.fdc.result } ∧
    (s.cfg.resetPortMode = .ignore → exec (.fdcResetWrite addr data) s = .next { s with ret := .nothing }) ∧
    (s.cfg.resetPortMode = .reset → exec (.fdcResetWrite addr data) s = .next { s with fdc := Fdc.reset, ret := .nothing }) ∧
    (∃ v, exec (.fdcResetRead addr) s = .next { s with ret := .byte v, draws := s.draws + 1 }) ∧
    (∃ v, exec (.fdcUnusedRead addr) s = .next { s with ret := .byte v, draws := s.draws + 1 })

/-! ## FDC commands -/

/-- Seek (R155): the command byte only latches; parameter 0 sets the track, unchecked; later ones do nothing; and Seek to 0
makes the track-0 bit of Read Drive Status 1. -/
def Obligations.SeekSetsTrack : Prop :=
  ∀ (addr : Addr) (drive drive' : BitVec 2) (data : Byte) (s : State),
    exec (.fdcSeek drive) s = .next
      { s with fdc := { s.fdc with command := 0x29, drive := drive, paramIndex := 0 }, ret := .nothing } ∧
    execAll [.fdcSeek drive, .fdcParamWrite addr data] s = .next
      { s with fdc := { s.fdc with command := 0x29, drive := drive, paramIndex := 1, track := data }, ret := .nothing } ∧
    (s.fdc.command = 0x29#6 → s.fdc.paramIndex ≠ 0 →
      exec (.fdcParamWrite addr data) s = .next
        { s with fdc := { s.fdc with paramIndex := s.fdc.paramIndex + 1 }, ret := .nothing }) ∧
    ∃ t, execAll [.fdcSeek drive, .fdcParamWrite addr 0x00, .fdcReadDriveStatus drive'] s = .next t ∧
      t.fdc.result.getLsbD 1 = true

/-- Read Drive Status (R156, R157): the result is one of four bytes by the ready mark and track 0, whatever the drive bits;
status is unchanged. D10, D11 and D12 are the spec's own. -/
def Obligations.ReadDriveStatusResult : Prop :=
  ∀ (drive : BitVec 2) (s : State), ∃ r,
    exec (.fdcReadDriveStatus drive) s = .next
      { s with fdc := { s.fdc with command := 0x2C, drive := drive, paramIndex := 0, result := r }, ret := .nothing } ∧
    (s.fdc.driveReady = false → s.fdc.track = 0 → r = 0x92) ∧ (s.fdc.driveReady = false → s.fdc.track ≠ 0 → r = 0x90) ∧
    (s.fdc.driveReady = true → s.fdc.track = 0 → r = 0x96) ∧ (s.fdc.driveReady = true → s.fdc.track ≠ 0 → r = 0x94)

/-- Specify (R161): the command byte latches, and any parameter only counts. -/
def Obligations.SpecifyOnlyCounts : Prop :=
  ∀ (addr : Addr) (drive : BitVec 2) (data : Byte) (s : State),
    exec (.fdcSpecify drive) s = .next
      { s with fdc := { s.fdc with command := 0x35, drive := drive, paramIndex := 0 }, ret := .nothing } ∧
    (s.fdc.command = 0x35#6 → exec (.fdcParamWrite addr data) s = .next
      { s with fdc := { s.fdc with paramIndex := s.fdc.paramIndex + 1 }, ret := .nothing })

/-- An unknown command (R153) is accepted without effect: it latches, and any parameter only counts. -/
def Obligations.UnknownCommandIsTolerated : Prop :=
  ∀ (addr : Addr) (drive : BitVec 2) (opcode : BitVec 6) (data : Byte) (s : State), ¬ SupportedOpcode opcode →
    exec (.fdcUnknown drive opcode) s = .next
      { s with fdc := { s.fdc with command := opcode, drive := drive, paramIndex := 0 }, ret := .nothing } ∧
    (s.fdc.command = opcode → exec (.fdcParamWrite addr data) s = .next
      { s with fdc := { s.fdc with paramIndex := s.fdc.paramIndex + 1 }, ret := .nothing })

/-- Write Special Register's command byte and first parameter (R162): the id is stored, whatever it is. -/
def Obligations.WriteSpecialStoresTheRegisterId : Prop :=
  ∀ (addr : Addr) (drive : BitVec 2) (id : Byte) (s : State),
    exec (.fdcWriteSpecial drive) s = .next
      { s with fdc := { s.fdc with command := 0x3A, drive := drive, paramIndex := 0 }, ret := .nothing } ∧
    execAll [.fdcWriteSpecial drive, .fdcParamWrite addr id] s = .next
      { s with fdc := { s.fdc with command := 0x3A, drive := drive, paramIndex := 1, selectedRegister := id },
               ret := .nothing }

/-- Write Special Register's value (R163, R164): register 0x23 with bit 6 set starts the countdown at 200 and leaves the
ready mark; every other case only counts. D12 is the spec's own. -/
def Obligations.WriteSpecialStartsTheDrive : Prop :=
  ∀ (addr : Addr) (data : Byte) (s : State), s.fdc.command = opWriteSpecial → s.fdc.paramIndex = 1 →
    (s.fdc.selectedRegister = 0x23#8 ∧ data.getLsbD 6 = true →
      exec (.fdcParamWrite addr data) s = .next
        { s with fdc := { s.fdc with driveCountdown := 200, paramIndex := 2 }, ret := .nothing }) ∧
    (¬ (s.fdc.selectedRegister = 0x23#8 ∧ data.getLsbD 6 = true) →
      exec (.fdcParamWrite addr data) s = .next { s with fdc := { s.fdc with paramIndex := 2 }, ret := .nothing })

/-- Read Data's command byte and first two parameters (R154, R158): command, then track, then sector, stored as they come. That
the command byte leaves a transfer alone (D10) and that each parameter is written when it arrives, the track to the one track
register (D9), are the spec's own choices. -/
def Obligations.ReadDataStoresTrackAndSector : Prop :=
  ∀ (addr : Addr) (drive : BitVec 2) (track sector : Byte) (s : State),
    exec (.fdcReadData drive) s = .next
      { s with fdc := { s.fdc with command := 0x13, drive := drive, paramIndex := 0 }, ret := .nothing } ∧
    execAll [.fdcReadData drive, .fdcParamWrite addr track, .fdcParamWrite addr sector] s = .next
      { s with fdc := { s.fdc with command := 0x13, drive := drive, paramIndex := 2, track := track, sector := sector },
               ret := .nothing }

/-- Read Data's third parameter (R159): the window from track and sector, both ends clamped to the image length; busy; the
deadline armed; the latch unchanged. The clamp of the start (D13) and the count's mask (D8) are the spec's own. -/
def Obligations.ReadDataStartsTheTransfer : Prop :=
  ∀ (addr : Addr) (data : Byte) (s : State), s.fdc.command = opReadData → s.fdc.paramIndex = 2 → InDomain s.now →
    let start := s.fdc.track.toNat * 2560 + s.fdc.sector.toNat * 256
    let stop := min (start + (data &&& s.cfg.countMask).toNat * 256) s.image.length
    exec (.fdcParamWrite addr data) s = .next
      { s with
        fdc := { s.fdc with
          sectorCount := data &&& s.cfg.countMask, endIndex := stop, byteIndex := min start stop
          status := s.cfg.stBusy, deadline := s.now + 400, paramIndex := 3 }
        ret := .nothing }

/-! ## FDC tick -/

/-- A tick with no deadline armed or before it (R185) does the countdown alone: status, result, cursor, latch and deadline
stay, and no NMI is called. -/
def Obligations.TickWithoutDueDeadline : Prop :=
  ∀ (c : Cycle) (s : State), s.fdc.deadline = 0 ∨ c.toNat < s.fdc.deadline.toNat →
    exec (.fdcTick c) s = .next
      { s with
        fdc := { s.fdc with
          driveCountdown := s.fdc.driveCountdown - 1
          driveReady := s.fdc.driveReady || decide (s.fdc.driveCountdown = 1) }
        ret := .nothing }

/-- A due tick with the cursor at its end (R182): result-full and interrupt request, result 0x00, deadline 0, one NMI; latch
and cursor unchanged. -/
def Obligations.TickCompletesTheTransfer : Prop :=
  ∀ (c : Cycle) (s : State), s.fdc.deadline ≠ 0 → s.fdc.deadline.toNat ≤ c.toNat → s.fdc.endIndex ≤ s.fdc.byteIndex →
    exec (.fdcTick c) s = .next
      { s with
        fdc := { s.fdc with
          driveCountdown := s.fdc.driveCountdown - 1
          driveReady := s.fdc.driveReady || decide (s.fdc.driveCountdown = 1)
          status := s.cfg.stResultFull ||| s.cfg.stIrq, result := 0x00, deadline := 0 }
        emitted := s.emitted ++ [.nmi]
        ret := .nothing }

/-- A due tick with the cursor inside (R183): the image byte is latched, the index advances, the status is busy, interrupt
request and non-DMA, one NMI; the image read is in range by the invariant. -/
def Obligations.TickLatchesTheNextByte : Prop :=
  ∀ (c : Cycle) (s : State), s.Inv → s.fdc.deadline ≠ 0 → s.fdc.deadline.toNat ≤ c.toNat →
    s.fdc.byteIndex < s.fdc.endIndex →
    ∃ b, s.image[s.fdc.byteIndex]? = some b ∧
      exec (.fdcTick c) s = .next
        { s with
          fdc := { s.fdc with
            driveCountdown := s.fdc.driveCountdown - 1
            driveReady := s.fdc.driveReady || decide (s.fdc.driveCountdown = 1)
            nextByte := b, byteIndex := s.fdc.byteIndex + 1
            status := s.cfg.stBusy ||| s.cfg.stIrq ||| s.cfg.stNonDma, deadline := 0 }
          emitted := s.emitted ++ [.nmi]
          ret := .nothing }

/-- A deadline that fires calls the NMI exactly once and is cleared; no later tick calls it again without a new deadline
(R184). -/
def Obligations.DeadlineFiresOnce : Prop :=
  ∀ (c : Cycle) (s : State), s.fdc.deadline ≠ 0 → s.fdc.deadline.toNat ≤ c.toNat →
    ∃ t, exec (.fdcTick c) s = .next t ∧ t.emitted = s.emitted ++ [.nmi] ∧ t.fdc.deadline = 0 ∧
      ∀ later : List Cycle, ∃ u, execAll (later.map .fdcTick) t = .next u ∧ u.emitted = t.emitted

/-- The countdown counts ticks (R181, R186): after the start at 200, n ticks leave 200 - n and mark the drive ready at the
200th and not before. -/
def Obligations.DriveReadyAtTheTwoHundredthTick : Prop :=
  ∀ (s : State) (ticks : List Cycle), s.fdc.driveCountdown = 200 → s.fdc.driveReady = false →
    ∃ t, execAll (ticks.map .fdcTick) s = .next t ∧ t.fdc.driveCountdown = 200 - ticks.length ∧
      (t.fdc.driveReady = true ↔ 200 ≤ ticks.length)

/-- The NMI is called by the tick alone, at most once an operation, and only for an armed deadline (R304, R306). -/
def Obligations.OnlyTicksRaiseTheNmi : Prop :=
  ∀ (i : Instr) (s t : State), exec i s = .next t →
    (t.emits .nmi = s.emits .nmi ∨
      t.emits .nmi = s.emits .nmi + 1 ∧ s.fdc.deadline ≠ 0 ∧
        ((∃ c, i = .fdcTick c) ∨ i = .schedTick ∨ i = .schedIteration))

/-- The read protocol (R126, R182, R183, R188): from an armed transfer, rounds of a tick at or after the deadline and a data
read return the window's bytes in image order, one NMI each; and when the window is exhausted the next due tick completes and a
last data read clears the status. -/
def Obligations.ReadProtocolYieldsTheImage : Prop :=
  ∀ (addr : Addr) (rounds : List (Cycle × Cycle)) (s : State), s.fdc.endIndex ≤ s.image.length → FlagsApart s.cfg →
    s.fdc.deadline ≠ 0 → RoundsSpaced s.fdc.deadline rounds → rounds.length ≤ s.fdc.endIndex - s.fdc.byteIndex →
    ∃ t, drainRounds addr rounds s = .next (t, (s.image.drop s.fdc.byteIndex).take rounds.length) ∧
      t.fdc.byteIndex = s.fdc.byteIndex + rounds.length ∧ t.fdc.endIndex = s.fdc.endIndex ∧
      t.emitted = s.emitted ++ List.replicate rounds.length .nmi ∧ t.fdc.deadline ≠ 0 ∧
      (rounds.length = s.fdc.endIndex - s.fdc.byteIndex → ∀ c : Cycle, t.fdc.deadline.toNat ≤ c.toNat →
        ∃ u, execAll [.fdcTick c] t = .next u ∧ u.fdc.status = s.cfg.stResultFull ||| s.cfg.stIrq ∧
          u.emitted = t.emitted ++ [.nmi] ∧ ∃ v, exec (.fdcDataRead addr) u = .next v ∧ v.fdc.status = 0x00)

/-! ## PIA -/

/-- The control register (R206, R207): a write stores the byte and changes no port, a read returns it, and no read or write of
Ports A, B and C depends on it: with another control byte each does the same and leaves that byte. -/
def Obligations.ControlIsStoredAndReadBack : Prop :=
  ∀ (addr : Addr) (data : Byte) (s : State),
    exec (.piaCtrlWrite addr data) s = .next { s with pia := { s.pia with control := data }, ret := .nothing } ∧
    exec (.piaCtrlRead addr) s = .next { s with ret := .byte s.pia.control } ∧
    execAll [.piaCtrlWrite addr data, .piaCtrlRead addr] s = .next
      { s with pia := { s.pia with control := data }, ret := .byte data } ∧
    ∀ (v : Byte) (i : Instr),
      i ∈ [.piaARead addr, .piaAWrite addr v, .piaBRead addr, .piaBWrite addr v, .piaCRead addr, .piaCWrite addr v] →
      ∃ t, exec i s = .next t ∧ t.pia.control = s.pia.control ∧
        exec i { s with pia := { s.pia with control := data } } = .next { t with pia := { t.pia with control := data } }

/-- Port A, and the store to Port C (R200, R201, R205): each write stores its byte verbatim in its own latch; Port A reads back
its latch. -/
def Obligations.PortLatchesAreStored : Prop :=
  ∀ (addr : Addr) (data : Byte) (s : State),
    exec (.piaAWrite addr data) s = .next { s with pia := { s.pia with portA := data }, ret := .nothing } ∧
    exec (.piaARead addr) s = .next { s with ret := .byte s.pia.portA } ∧
    exec (.piaCWrite addr data) s = .next { s with pia := { s.pia with portC := data }, ret := .nothing }

/-- A Port B read returns and stores the scan of the column Port A selects; the column field is the spec's own choice (R202,
D21). -/
def Obligations.PortBReadStoresTheScan : Prop :=
  ∀ (addr : Addr) (s : State), ∃ v,
    exec (.piaBRead addr) s = .next { s with pia := { s.pia with portB := v }, ret := .byte v } ∧
    exec (.kbdScan (s.pia.portA &&& s.cfg.colMask)) s = .next { s with ret := .byte v }

/-- A Port B write (R203) stores its byte and nothing else, and has no effect a program can observe: the next Port B read
leaves the state it would have left without the write, and no bus read of any address returns another value for it. That it
is unobservable is the spec's own inference, from R202 and R203. -/
def Obligations.PortBWriteIsUnobservable : Prop :=
  ∀ (addr addr' : Addr) (data : Byte) (s : State),
    exec (.piaBWrite addr data) s = .next { s with pia := { s.pia with portB := data }, ret := .nothing } ∧
    execAll [.piaBWrite addr data, .piaBRead addr'] s = exec (.piaBRead addr') s ∧
    ∃ t u, execAll [.piaBWrite addr data, .fetch addr'] s = .next t ∧ exec (.fetch addr') s = .next u ∧ t.ret = u.ret

/-- A Port C read (R204): bits 5:0 are the latch's, bit 6 is 0 iff Repeat is held, bit 7 is 0 iff field sync is true at the
access's count; the value is returned and stored (the store is the spec's own decision, D37). -/
def Obligations.PortCReadOverlays : Prop :=
  ∀ (addr : Addr) (s : State), ∃ v,
    exec (.piaCRead addr) s = .next { s with pia := { s.pia with portC := v }, ret := .byte v } ∧
    (∀ i, i < 6 → v.getLsbD i = s.pia.portC.getLsbD i) ∧
    (v.getLsbD 6 = false ↔ ∃ k : Fin 61, s.cfg.keymap[k] = .repeatKey ∧ s.kbd.pressed[k] = true) ∧
    (v.getLsbD 7 = false ↔ s.now.toNat % s.cfg.frameCycles < s.cfg.syncCycles)

/-! ## Keyboard -/

/-- Key events (R87, R224): a code below 61 is a press, one from RELEASE_OFFSET a release, any other is dropped, and so is an
event at a full queue. The release offset (D22) and the drop at a full queue (D23) are the spec's own. -/
def Obligations.KeyEventsAreQueuedOrDropped : Prop :=
  ∀ (code : Int) (s : State), keyCount ≤ s.cfg.releaseOffset →
    (∀ k : Fin 61, (k.val : Int) = code → s.kbd.queue.length < s.cfg.queueCap →
      exec (.keyEvent code) s = .next { s with kbd := { s.kbd with queue := s.kbd.queue ++ [⟨k, false⟩] }, ret := .nothing }) ∧
    (∀ k : Fin 61, (k.val : Int) + s.cfg.releaseOffset = code → s.kbd.queue.length < s.cfg.queueCap →
      exec (.keyEvent code) s = .next { s with kbd := { s.kbd with queue := s.kbd.queue ++ [⟨k, true⟩] }, ret := .nothing }) ∧
    ((code < 0 ∨ (61 ≤ code ∧ code < s.cfg.releaseOffset) ∨ (s.cfg.releaseOffset : Int) + 61 ≤ code) →
      exec (.keyEvent code) s = .next { s with ret := .nothing }) ∧
    (s.cfg.queueCap ≤ s.kbd.queue.length → exec (.keyEvent code) s = .next { s with ret := .nothing })

/-- The drain (R225): the queue is emptied, and each key is as the last queued event for it says, or as before where there
is none; nothing else changes. That the oldest event is applied first is the spec's own decision (D23). -/
def Obligations.DrainAppliesTheLastEvent : Prop :=
  ∀ s : State, ∃ pressed,
    exec .schedDrain s = .next { s with kbd := { pressed := pressed, queue := [] }, ret := .nothing } ∧
    ∀ k : Fin 61, pressed[k] =
      match (s.kbd.queue.filter fun e => e.key = k).getLast? with
      | some e => !e.released
      | none => s.kbd.pressed[k]

/-- The scan (R226): bit r of rows 0 to 5 is low iff a key at (r, column) is pressed, bit 6 iff Ctrl, bit 7 iff Shift. That
columns from 10 on pull no row bit low is R227's reading, the spec's own choice (D21). -/
def Obligations.ScanReportsHeldKeys : Prop :=
  ∀ (col : Byte) (s : State), ∃ v, exec (.kbdScan col) s = .next { s with ret := .byte v } ∧
    (∀ row : Fin 6, v.getLsbD row = false ↔
      ∃ (k : Fin 61) (c : Fin 10), c.val = col.toNat ∧ s.cfg.keymap[k] = .cell row c ∧ s.kbd.pressed[k] = true) ∧
    (v.getLsbD 6 = false ↔ ∃ k : Fin 61, s.cfg.keymap[k] = .ctrl ∧ s.kbd.pressed[k] = true) ∧
    (v.getLsbD 7 = false ↔ ∃ k : Fin 61, s.cfg.keymap[k] = .shift ∧ s.kbd.pressed[k] = true)

/-- Break and Repeat (R228, R229): the flag is true iff a pressed code has the role; the roles are D22's, the spec's own. -/
def Obligations.BreakAndRepeatQueries : Prop :=
  ∀ s : State, ∃ b r,
    exec .kbdBreak s = .next { s with ret := .flag b } ∧ exec .kbdRepeat s = .next { s with ret := .flag r } ∧
    (b = true ↔ ∃ k : Fin 61, s.cfg.keymap[k] = .breakKey ∧ s.kbd.pressed[k] = true) ∧
    (r = true ↔ ∃ k : Fin 61, s.cfg.keymap[k] = .repeatKey ∧ s.kbd.pressed[k] = true)

/-- The keys are written by the drain alone; the queue is appended to by the input producer and emptied by the drain (R38). That
a whole iteration ends with an empty queue is the model's choice: an iteration is one step (log 14). -/
def Obligations.KeyboardWriters : Prop :=
  ∀ (i : Instr) (s t : State), exec i s = .next t →
    (i ≠ .schedDrain → i ≠ .schedIteration → t.kbd.pressed = s.kbd.pressed) ∧
    ((∃ code, i = .keyEvent code) → ∃ es, t.kbd.queue = s.kbd.queue ++ es) ∧
    (i = .schedDrain ∨ i = .schedIteration → t.kbd.queue = []) ∧
    ((∀ code, i ≠ .keyEvent code) → i ≠ .schedDrain → i ≠ .schedIteration → t.kbd.queue = s.kbd.queue)

/-! ## Video -/

/-- Field sync (R240) is a pure function of its count, with the default constants of R241 by integer division (D18, the
spec's own), and a frame later it is the same. -/
def Obligations.FieldSyncIsPeriodic : Prop :=
  ∀ (c : Cycle) (s : State), ∃ b,
    exec (.vduFieldsync c) s = .next { s with ret := .flag b } ∧
    (b = true ↔ c.toNat % s.cfg.frameCycles < s.cfg.syncCycles) ∧
    (c.toNat + s.cfg.frameCycles < 2 ^ 64 →
      exec (.vduFieldsync (c + BitVec.ofNat 64 s.cfg.frameCycles)) s = .next { s with ret := .flag b }) ∧
    defaultParams.frameCycles = 1000000 / 60 ∧ defaultParams.syncCycles = 1000000 / 60 * 70 / 262

/-- A snapshot (R250) is a full raster of 192 rows of 256 pixels, each by the text path or the graphics path as Port A's bit
4 says; it changes nothing. The bit mask test of bit 4 (D19), the submode from bits 7:5 (D20) and a snapshot as one atomic step
(D29, log 13, unsafe for the raster's contents under a concurrent renderer) are the spec's own choices. -/
def Obligations.SnapshotIsTheWholeRaster : Prop :=
  ∀ s : State, ∃ rows,
    exec .vduSnapshot s = .next { s with ret := .raster rows } ∧ rows.length = 192 ∧ (∀ row ∈ rows, row.length = 256) ∧
    ∀ x y, x < 256 → y < 192 → (rows[y]?.bind fun row => row[x]?) =
      some (if s.pia.portA &&& 0x10 = 0 then textPixel s.cfg s.ram x y
            else graphicsPixel s.cfg s.ram (graphicsMode (s.pia.portA.extractLsb' 5 3)) x y)

/-- The raster depends on RAM only through the 6,144 bytes from VIDEO_BASE (R257): two RAMs that agree there give one
raster. That it reads RAM directly is the spec's own decision (D28). -/
def Obligations.RasterReadsOnlyVideoRam : Prop :=
  ∀ (s : State) (m : Memory),
    (∀ a, s.cfg.videoBase ≤ a → a < s.cfg.videoBase + 6144 → Memory.read m a = Memory.read s.ram a) →
    ∃ rows, exec .vduSnapshot s = .next { s with ret := .raster rows } ∧
      exec .vduSnapshot { s with ram := m } = .next { s with ram := m, ret := .raster rows }

/-- The text path. The cell of (x, y) is the byte at VIDEO_BASE + 32 (y / 12) + x / 8 (R252); with its bit 6 set the pixel is
the semigraphics pixel at (y mod 12, x mod 8) (R254), else it is light iff the pattern's bit, 7 leftmost, differs from the inverse
bit, the pattern being the FONT row that FONT_ROW places on the line, or blank (R253). So an inverse character shows the
complement of the same one with bit 7 clear, light for dark, whatever the font. The row placement is the spec's own (D28). -/
def Obligations.InverseIsTheComplement : Prop :=
  (∀ (p : Params) (m : Memory) (x y : Nat) (line : Fin 12), x < 256 → y < 192 → line.val = y % 12 →
    let ch := Memory.read m (p.videoBase + y / 12 * 32 + x / 8)
    (ch.getLsbD 6 = true → textPixel p m x y = semigraphicsPixel p ch (y % 12) (x % 8)) ∧
    (ch.getLsbD 6 = false → textPixel p m x y =
      if (match p.fontRow[line] with
          | some r => ((p.font[ch.toNat % 64]'(Nat.mod_lt _ (by decide)))[r]).getLsbD (7 - x % 8)
          | none => false) ^^ ch.getLsbD 7
      then p.textLight else p.textDark)) ∧
  (∀ (p : Params) (m m' : Memory) (x y : Nat),
    (Memory.read m (textAddress p x y)).getLsbD 6 = false →
    Memory.read m' (textAddress p x y) = Memory.read m (textAddress p x y) ^^^ 0x80 →
    ∃ b : Bool, textPixel p m x y = (if b then p.textLight else p.textDark) ∧
      textPixel p m' x y = (if b then p.textDark else p.textLight))

/-- The pixels of every graphics mode: R255's table of (columns, lines, colorBits) and R256's formula, for each m. Modes 7
and 0 are then written out: mode 7 is bit 7 - x mod 8 of the byte at VIDEO_BASE + 32 y + x / 8; mode 0 takes two bits of the
byte at VIDEO_BASE + 16 (y / 3) + x / 16. The order of the modes (D20) and of the bytes (D28) is the spec's own. -/
def Obligations.GraphicsPixelsOfModesSevenAndZero : Prop :=
  ∀ (p : Params) (ram : Memory) (x y : Nat), x < 256 → y < 192 →
    (∀ (m : BitVec 3) (cols lines bpp : Nat),
      (m.toNat, cols, lines, bpp) ∈ [(0, 64, 64, 2), (1, 128, 64, 1), (2, 128, 64, 2), (3, 128, 96, 1), (4, 128, 96, 2),
        (5, 128, 192, 1), (6, 128, 192, 2), (7, 256, 192, 1)] →
      let lx := x / (256 / cols)
      let ly := y / (192 / lines)
      let ppb := 8 / bpp
      let b := (Memory.read ram (p.videoBase + ly * (cols / ppb) + lx / ppb)).toNat
      let v := b / 2 ^ (8 - bpp * (lx % ppb + 1)) % 2 ^ bpp
      some (graphicsPixel p ram (graphicsMode m) x y) = if bpp = 1 then p.palette2[v]? else p.palette4[v]?) ∧
    graphicsPixel p ram (graphicsMode 7) x y =
      (if (Memory.read ram (p.videoBase + y * 32 + x / 8)).getLsbD (7 - x % 8) then p.palette2[1] else p.palette2[0]) ∧
    graphicsPixel p ram (graphicsMode 0) x y =
      p.palette4[(((Memory.read ram (p.videoBase + y / 3 * 16 + x / 16)) >>> (6 - 2 * (x / 4 % 4))).setWidth 2).toFin]

/-- Semigraphics (R254): the block at cell line l and pixel column px is the character's bit 2 (2 - l / 4), plus 1 for the
left half; that the left block is the higher bit is the spec's own decision (D28). -/
def Obligations.SemigraphicsBlocks : Prop :=
  ∀ (p : Params) (ch : Byte) (line px : Nat), line < 12 → px < 8 →
    semigraphicsPixel p ch line px =
      (let n : Fin 2 := if ch.getLsbD 7 then 1 else 0
       if ch.getLsbD (2 * (2 - line / 4) + (if px < 4 then 1 else 0)) then p.paletteSg[p.sgOn[n]]
       else p.paletteSg[p.sgOff[n]])

/-! ## Scheduler -/

/-- One iteration (R270) is drain, tick, Break check and one instruction, in this order, the tick being the FDC tick at the
CPU's current cycle count (R273); the pacing after them changes only the pacing state, the wall-clock readings and the
number of draws (R276; log 15). -/
def Obligations.IterationRunsInOrder : Prop :=
  ∀ s : State, exec .schedTick s = exec (.fdcTick s.now) s ∧ ∃ t u,
    execAll [.schedDrain, .schedTick, .schedBreakCheck, .schedExecute] s = .next u ∧ exec .schedIteration s = .next t ∧
    t = { u with sched := { u.sched with pace := t.sched.pace }, wall := t.wall, draws := t.draws }

/-- The Break check (R272): a reset of CPU, PIA and FDC exactly on the rising edge, which leaves RAM, ROM, image, keyboard
and everything else as it was (R331). The edge state (D25) and the zero values (D24) are the spec's own; the least count that
the CPU can show next returns to 0, because its count may restart (D34, log 7). -/
def Obligations.BreakEdgeResets : Prop :=
  ∀ s : State,
    ((∃ k : Fin 61, s.cfg.keymap[k] = .breakKey ∧ s.kbd.pressed[k] = true) ∧ s.sched.breakPrev = false →
      exec .schedBreakCheck s = .next
        { s with
          fdc := Fdc.reset, pia := Pia.reset, emitted := s.emitted ++ [.cpuReset], countFloor := 0
          sched := { s.sched with breakPrev := true }, ret := .nothing }) ∧
    ((∃ k : Fin 61, s.cfg.keymap[k] = .breakKey ∧ s.kbd.pressed[k] = true) ∧ s.sched.breakPrev = true →
      exec .schedBreakCheck s = .next { s with ret := .nothing }) ∧
    (¬ (∃ k : Fin 61, s.cfg.keymap[k] = .breakKey ∧ s.kbd.pressed[k] = true) →
      exec .schedBreakCheck s = .next { s with sched := { s.sched with breakPrev := false }, ret := .nothing })

/-- Break held through any number of checks resets once (R272, D25). -/
def Obligations.HeldBreakResetsOnce : Prop :=
  ∀ (s : State) (n : Nat), (∃ k : Fin 61, s.cfg.keymap[k] = .breakKey ∧ s.kbd.pressed[k] = true) →
    s.sched.breakPrev = false →
    ∃ t, execAll (List.replicate (n + 1) .schedBreakCheck) s = .next t ∧ t.emitted = s.emitted ++ [.cpuReset]

/-- An NMI and a reset of one iteration (R307), with Break held after the iteration's own drain: the NMI call comes first, and
after the reset nothing of the transfer is left; the whole iteration makes these two calls and no other. That the calls come in
the order of the sub-steps is the spec's own decision (D27). -/
def Obligations.NmiComesBeforeReset : Prop :=
  ∀ s u : State, exec .schedDrain s = .next u →
    (∃ k : Fin 61, s.cfg.keymap[k] = .breakKey ∧ u.kbd.pressed[k] = true) →
    s.sched.breakPrev = false → s.fdc.deadline ≠ 0 → s.fdc.deadline.toNat ≤ s.now.toNat →
    (∃ t, execAll [.schedDrain, .schedTick, .schedBreakCheck] s = .next t ∧
      t.emitted = s.emitted ++ [.nmi, .cpuReset] ∧ t.fdc = Fdc.reset) ∧
    ∃ v, exec .schedIteration s = .next v ∧ v.emitted = s.emitted ++ [.nmi, .cpuReset]

/-- A CPU instruction (R274): with no access it only advances the cycle count; its first access is the bus row of the access,
at the access's own count, before the rest of the instruction, and its read's byte comes first in what is returned; no count
lies below an earlier one (R25). With no instruction supplied it is some instruction, at the cost of one draw. The supplied
list is the model's (log 6), and so are a count below the floor, read as the floor (log 7), and the returned bytes (log 12). -/
def Obligations.ExecutePerformsTheAccesses : Prop :=
  (∀ (s : State) (c : Cycle) (rest : List CpuInstr), s.cpu = ⟨[], c⟩ :: rest →
    let c' := if s.countFloor.toNat ≤ c.toNat then c else s.countFloor
    exec .schedExecute s = .next { s with cpu := rest, now := c', countFloor := c', ret := .bytes [] }) ∧
  (∀ (s : State) (a : BusAccess) (as : List BusAccess) (c : Cycle) (rest : List CpuInstr), s.cpu = ⟨a :: as, c⟩ :: rest →
    let c' := if s.countFloor.toNat ≤ a.now.toNat then a.now else s.countFloor
    ∃ (u t : State) (bytes : List Byte),
      exec (busRow s.cfg a.dir a.addr a.data) { s with cpu := rest, now := c', countFloor := c' } = .next u ∧
      exec .schedExecute { u with cpu := ⟨as, c⟩ :: rest } = .next { t with ret := .bytes bytes } ∧
      exec .schedExecute s = .next { t with ret := .bytes (u.ret.readByte ++ bytes) } ∧
      s.countFloor.toNat ≤ u.now.toNat ∧ u.now.toNat ≤ t.now.toNat) ∧
  (∀ s : State, s.cpu = [] → ∃ n, exec .schedExecute s = exec .schedExecute { s with cpu := [n], draws := s.draws + 1 })
end

