-- ==== Sys2Proof/Laws/Decode.lean ====
section
/-! SUPPORT. The decoder's laws: bytes and fields put together again, the word of a bus triple, the well-formedness of what
each row function answers, and the bus rows as the bus operations. -/

namespace Sys2Proof

open Sys2Proof.Machine

@[simp] theorem dirOfByte_byteOfDir (d : Dir) : dirOfByte (byteOfDir d) = some d := by cases d <;> rfl

@[simp] theorem addrOfBytes_extract (a : Addr) : addrOfBytes (a.extractLsb' 0 8) (a.extractLsb' 8 8) = a := by
  apply BitVec.eq_of_getLsbD_eq
  intro i h
  rw [addrOfBytes, BitVec.getLsbD_append]
  split
  · simp_all
  · rw [BitVec.getLsbD_extractLsb', show 8 + (i - 8) = i by omega]
    simp
    omega

@[simp] theorem commandDrive_append (d : BitVec 2) (o : BitVec 6) : commandDrive (d ++ o) = d := by
  apply BitVec.eq_of_getLsbD_eq
  intro i h
  rw [commandDrive, BitVec.getLsbD_extractLsb', BitVec.getLsbD_append]
  simp [h]

@[simp] theorem commandOpcode_append (d : BitVec 2) (o : BitVec 6) : commandOpcode (d ++ o) = o := by
  apply BitVec.eq_of_getLsbD_eq
  intro i h
  rw [commandOpcode, BitVec.getLsbD_extractLsb', BitVec.getLsbD_append]
  simp [h]

/-! ## Targets

Stated for any parameters: over `defaultParams` and a variable address the kernel would evaluate the region's comparisons. -/

theorem target_ram {p : Config.Params} {addr : Addr} (h : region p addr = .ram) : target p addr = .ram := by
  rw [target, h]

theorem target_rom {p : Config.Params} {addr : Addr} (h : region p addr = .rom) : target p addr = .rom := by
  rw [target, h]

theorem target_unmapped {p : Config.Params} {addr : Addr} (h : region p addr = .unmapped) :
    target p addr = .unmapped := by
  rw [target, h]

/-- The FDC port that an offset selects (R105). -/
theorem target_fdc {p : Config.Params} {addr : Addr} {port : FdcPort} (h : region p addr = .fdc)
    (k : fdcPortAt (fdcOffset p addr) = some port) : target p addr = .fdc port := by
  rw [target, h]; simp only [k]

/-- An FDC offset past the ports is a hole (R90). -/
theorem target_fdcHole {p : Config.Params} {addr : Addr} (h : region p addr = .fdc)
    (k : fdcPortAt (fdcOffset p addr) = none) : target p addr = .fdcHole := by
  rw [target, h]; simp only [k]

/-- The PIA register that an offset selects (R106). -/
theorem target_pia {p : Config.Params} {addr : Addr} {port : PiaPort} (h : region p addr = .pia)
    (k : piaPortAt (piaOffset p addr) = some port) : target p addr = .pia port := by
  rw [target, h]; simp only [k]

/-! ## Words and rows -/

/-- The word of a bus triple decodes to the triple's row. -/
theorem decode_busWord (p : Config.Params) (dir : Dir) (addr : Addr) (data : Byte) :
    decode p (busWord dir addr data) = .ok (busRow p dir addr data) := by
  simp [busWord, decode]

theorem readRow_wellFormed (p : Config.Params) (addr : Addr) : (readRow p addr).WellFormed p = true := by
  unfold readRow; split <;> simp_all [Instr.WellFormed]

theorem writeRow_wellFormed (p : Config.Params) (addr : Addr) (data : Byte) :
    (writeRow p addr data).WellFormed p = true := by
  unfold writeRow; split <;> simp_all [Instr.WellFormed]

theorem busRow_wellFormed (p : Config.Params) (dir : Dir) (addr : Addr) (data : Byte) :
    (busRow p dir addr data).WellFormed p = true := by
  cases dir with
  | read => exact readRow_wellFormed p addr
  | write => exact writeRow_wellFormed p addr data
  | fetch => rfl

theorem commandRow_wellFormed (p : Config.Params) (data : Byte) : (commandRow data).WellFormed p = true := by
  unfold commandRow
  split_ifs <;> simp_all [Instr.WellFormed]

theorem plainEvent_wellFormed {p : Config.Params} {i j : Instr} {operand : Cycle} (hi : i.WellFormed p = true)
    (h : plainEvent i operand = .ok j) : j.WellFormed p = true := by
  unfold plainEvent at h; split at h <;> simp_all

theorem commandRow_append (drive : BitVec 2) (opcode : BitVec 6) (h : ¬ SupportedOpcode opcode) :
    commandRow (commandByte drive opcode) = .fdcUnknown drive opcode := by
  simp only [SupportedOpcode, not_or] at h
  simp [commandRow, commandByte, h]

/-- A bus row of the read kind is the bus read (R81, R101). -/
theorem exec_readRow (s : State) (addr : Addr) : exec (readRow s.cfg addr) s = .next (busRead addr s) := by
  unfold readRow busRead
  cases target s.cfg addr with
  | fdc port => cases port <;> rfl
  | pia port => cases port <;> rfl
  | _ => rfl

/-- A bus row of the write kind is the bus write (R81, R102). -/
theorem exec_writeRow (s : State) (addr : Addr) (data : Byte) :
    exec (writeRow s.cfg addr data) s = .next (busWrite addr data s) := by
  unfold writeRow busWrite
  cases target s.cfg addr with
  | fdc port => cases port <;> rfl
  | pia port => cases port <;> rfl
  | _ => rfl

/-- A bus row at its access's count is the CPU collaborator's bus access (R274). -/
theorem exec_busRow (s : State) (a : BusAccess) :
    exec (busRow s.cfg a.dir a.addr a.data) (s.atCount a.now) = .next (busAccess a s) := by
  unfold busAccess busRow
  cases a.dir with
  | read => exact exec_readRow (s.atCount a.now) a.addr
  | write => exact exec_writeRow (s.atCount a.now) a.addr a.data
  | fetch => rfl

end Sys2Proof
end

