-- ==== Sys2Proof/Laws/Memory.lean ====
section
/-! SUPPORT. The laws of byte arrays: read after write, the canonical form, and what entries a write leaves. -/

namespace Sys2Proof.Machine

@[simp] theorem Memory.read_nil (a : Nat) : Memory.read [] a = unlistedByte := rfl

theorem Memory.read_cons (k : Nat) (v : Byte) (m : Memory) (a : Nat) :
    Memory.read ((k, v) :: m) a = if k = a then v else Memory.read m a := rfl

/-- An address below every listed one reads as an unlisted byte. -/
theorem Memory.read_below {m : Memory} {a : Nat} (h : ∀ c ∈ m, a < c.1) : Memory.read m a = unlistedByte := by
  induction m with
  | nil => rfl
  | cons c m ih =>
    obtain ⟨k, v⟩ := c
    have hk : a < k := h (k, v) (by simp)
    rw [Memory.read_cons, if_neg (by omega), ih fun c hc => h c (by simp [hc])]

/-- The first entry of a canonical array lies below the others. -/
theorem Memory.wf_cons {k : Nat} {v : Byte} {m : Memory} (h : Memory.wf ((k, v) :: m)) :
    (∀ c ∈ m, k < c.1) ∧ v ≠ unlistedByte ∧ Memory.wf m := by
  obtain ⟨hp, hn⟩ := h
  rw [List.pairwise_cons] at hp
  exact ⟨hp.1, hn (k, v) (by simp), hp.2, fun c hc => hn c (by simp [hc])⟩

/-- Reading the written address of a canonical array gives the written byte. -/
theorem Memory.read_write_same {m : Memory} (h : m.wf) (a : Nat) (v : Byte) : (m.write a v).read a = v := by
  induction m with
  | nil =>
    rw [Memory.write]
    split
    · simp_all
    · simp [Memory.read_cons]
  | cons c m ih =>
    obtain ⟨k, w⟩ := c
    obtain ⟨hlt, -, hm⟩ := Memory.wf_cons h
    rw [Memory.write]
    split_ifs with h1 h2 h3 h4
    · rw [h2, Memory.read_cons, if_neg (by omega)]
      exact Memory.read_below fun c hc => by have := hlt c hc; omega
    · simp [Memory.read_cons]
    · rw [h4, h3]
      exact Memory.read_below hlt
    · simp [Memory.read_cons]
    · rw [Memory.read_cons, if_neg (by omega), ih hm]

/-- Writing one address of a canonical array leaves every other address's byte alone. -/
theorem Memory.read_write_other {m : Memory} (h : m.wf) {a b : Nat} (v : Byte) (hab : b ≠ a) :
    (m.write a v).read b = m.read b := by
  induction m with
  | nil =>
    rw [Memory.write]
    split
    · rfl
    · rw [Memory.read_cons, if_neg (Ne.symm hab)]
  | cons c m ih =>
    obtain ⟨k, w⟩ := c
    obtain ⟨hlt, -, hm⟩ := Memory.wf_cons h
    rw [Memory.write]
    split_ifs with h1 h2 h3 h4
    · rfl
    · rw [Memory.read_cons, if_neg (Ne.symm hab)]
    · rw [Memory.read_cons, if_neg (by omega)]
    · rw [Memory.read_cons, Memory.read_cons, if_neg (Ne.symm hab), if_neg (by omega)]
    · rw [Memory.read_cons, Memory.read_cons, ih hm]

/-- Every entry after a write is the written one or an old one. -/
theorem Memory.mem_write {m : Memory} {a : Nat} {v : Byte} {c : Host.Cell} (hc : c ∈ m.write a v) :
    c = (a, v) ∧ v ≠ unlistedByte ∨ c ∈ m := by
  induction m with
  | nil =>
    rw [Memory.write] at hc
    split at hc
    · simp at hc
    · left; simp_all
  | cons d m ih =>
    obtain ⟨k, w⟩ := d
    rw [Memory.write] at hc
    split_ifs at hc with h1 h2 h3 h4
    · exact .inr hc
    · rcases List.mem_cons.mp hc with rfl | hc
      · exact .inl ⟨rfl, h2⟩
      · exact .inr hc
    · exact .inr (by simp [hc])
    · rcases List.mem_cons.mp hc with rfl | hc
      · exact .inl ⟨rfl, h4⟩
      · exact .inr (by simp [hc])
    · rcases List.mem_cons.mp hc with rfl | hc
      · exact .inr (by simp)
      · rcases ih hc with h | h
        · exact .inl h
        · exact .inr (by simp [h])

/-- A write keeps the canonical form. -/
theorem Memory.wf_write {m : Memory} (h : m.wf) (a : Nat) (v : Byte) : (m.write a v).wf := by
  refine ⟨?_, fun c hc => ?_⟩
  · induction m with
    | nil => rw [Memory.write]; split <;> simp
    | cons c m ih =>
      obtain ⟨k, w⟩ := c
      obtain ⟨hlt, -, hm⟩ := Memory.wf_cons h
      rw [Memory.write]
      split_ifs with h1 h2 h3 h4
      · exact h.1
      · refine List.pairwise_cons.mpr ⟨fun c hc => ?_, h.1⟩
        rcases List.mem_cons.mp hc with rfl | hc
        · exact h1
        · have := hlt c hc; simp only; omega
      · exact hm.1
      · exact List.pairwise_cons.mpr ⟨fun c hc => by have := hlt c hc; simp only; omega, hm.1⟩
      · refine List.pairwise_cons.mpr ⟨fun c hc => ?_, ih hm⟩
        rcases Memory.mem_write hc with ⟨rfl, -⟩ | hc
        · simp only; omega
        · exact hlt c hc
  · rcases Memory.mem_write hc with ⟨rfl, hv⟩ | hc
    · exact hv
    · exact h.2 c hc

theorem Memory.wf_nil : Memory.wf [] := by simp [Memory.wf]

end Sys2Proof.Machine
end

