-- ==== Sys2Proof/Laws/State.lean ====
section
/-! SUPPORT. What each named update of the state does to each field, one lemma a field, so that no proof unfolds an update. -/

namespace Sys2Proof.Machine

variable (s : State)

/-! ## `State.returning` -/

@[simp] theorem State.returning_cfg (r : Ret) : (s.returning r).cfg = s.cfg := rfl
@[simp] theorem State.returning_ram (r : Ret) : (s.returning r).ram = s.ram := rfl
@[simp] theorem State.returning_rom (r : Ret) : (s.returning r).rom = s.rom := rfl
@[simp] theorem State.returning_image (r : Ret) : (s.returning r).image = s.image := rfl
@[simp] theorem State.returning_fdc (r : Ret) : (s.returning r).fdc = s.fdc := rfl
@[simp] theorem State.returning_pia (r : Ret) : (s.returning r).pia = s.pia := rfl
@[simp] theorem State.returning_kbd (r : Ret) : (s.returning r).kbd = s.kbd := rfl
@[simp] theorem State.returning_sched (r : Ret) : (s.returning r).sched = s.sched := rfl
@[simp] theorem State.returning_now (r : Ret) : (s.returning r).now = s.now := rfl
@[simp] theorem State.returning_countFloor (r : Ret) : (s.returning r).countFloor = s.countFloor := rfl
@[simp] theorem State.returning_cpu (r : Ret) : (s.returning r).cpu = s.cpu := rfl
@[simp] theorem State.returning_wall (r : Ret) : (s.returning r).wall = s.wall := rfl
@[simp] theorem State.returning_schedule (r : Ret) : (s.returning r).schedule = s.schedule := rfl
@[simp] theorem State.returning_emitted (r : Ret) : (s.returning r).emitted = s.emitted := rfl
@[simp] theorem State.returning_ret (r : Ret) : (s.returning r).ret = r := rfl
@[simp] theorem State.returning_draws (r : Ret) : (s.returning r).draws = s.draws := rfl

/-! ## `State.withRam` -/

@[simp] theorem State.withRam_cfg (m : Memory) : (s.withRam m).cfg = s.cfg := rfl
@[simp] theorem State.withRam_ram (m : Memory) : (s.withRam m).ram = m := rfl
@[simp] theorem State.withRam_rom (m : Memory) : (s.withRam m).rom = s.rom := rfl
@[simp] theorem State.withRam_image (m : Memory) : (s.withRam m).image = s.image := rfl
@[simp] theorem State.withRam_fdc (m : Memory) : (s.withRam m).fdc = s.fdc := rfl
@[simp] theorem State.withRam_pia (m : Memory) : (s.withRam m).pia = s.pia := rfl
@[simp] theorem State.withRam_kbd (m : Memory) : (s.withRam m).kbd = s.kbd := rfl
@[simp] theorem State.withRam_sched (m : Memory) : (s.withRam m).sched = s.sched := rfl
@[simp] theorem State.withRam_now (m : Memory) : (s.withRam m).now = s.now := rfl
@[simp] theorem State.withRam_countFloor (m : Memory) : (s.withRam m).countFloor = s.countFloor := rfl
@[simp] theorem State.withRam_cpu (m : Memory) : (s.withRam m).cpu = s.cpu := rfl
@[simp] theorem State.withRam_wall (m : Memory) : (s.withRam m).wall = s.wall := rfl
@[simp] theorem State.withRam_schedule (m : Memory) : (s.withRam m).schedule = s.schedule := rfl
@[simp] theorem State.withRam_emitted (m : Memory) : (s.withRam m).emitted = s.emitted := rfl
@[simp] theorem State.withRam_ret (m : Memory) : (s.withRam m).ret = s.ret := rfl
@[simp] theorem State.withRam_draws (m : Memory) : (s.withRam m).draws = s.draws := rfl

/-! ## `State.withFdc` -/

@[simp] theorem State.withFdc_cfg (f : Fdc) : (s.withFdc f).cfg = s.cfg := rfl
@[simp] theorem State.withFdc_ram (f : Fdc) : (s.withFdc f).ram = s.ram := rfl
@[simp] theorem State.withFdc_rom (f : Fdc) : (s.withFdc f).rom = s.rom := rfl
@[simp] theorem State.withFdc_image (f : Fdc) : (s.withFdc f).image = s.image := rfl
@[simp] theorem State.withFdc_fdc (f : Fdc) : (s.withFdc f).fdc = f := rfl
@[simp] theorem State.withFdc_pia (f : Fdc) : (s.withFdc f).pia = s.pia := rfl
@[simp] theorem State.withFdc_kbd (f : Fdc) : (s.withFdc f).kbd = s.kbd := rfl
@[simp] theorem State.withFdc_sched (f : Fdc) : (s.withFdc f).sched = s.sched := rfl
@[simp] theorem State.withFdc_now (f : Fdc) : (s.withFdc f).now = s.now := rfl
@[simp] theorem State.withFdc_countFloor (f : Fdc) : (s.withFdc f).countFloor = s.countFloor := rfl
@[simp] theorem State.withFdc_cpu (f : Fdc) : (s.withFdc f).cpu = s.cpu := rfl
@[simp] theorem State.withFdc_wall (f : Fdc) : (s.withFdc f).wall = s.wall := rfl
@[simp] theorem State.withFdc_schedule (f : Fdc) : (s.withFdc f).schedule = s.schedule := rfl
@[simp] theorem State.withFdc_emitted (f : Fdc) : (s.withFdc f).emitted = s.emitted := rfl
@[simp] theorem State.withFdc_ret (f : Fdc) : (s.withFdc f).ret = s.ret := rfl
@[simp] theorem State.withFdc_draws (f : Fdc) : (s.withFdc f).draws = s.draws := rfl

/-! ## `State.withPia` -/

@[simp] theorem State.withPia_cfg (p : Pia) : (s.withPia p).cfg = s.cfg := rfl
@[simp] theorem State.withPia_ram (p : Pia) : (s.withPia p).ram = s.ram := rfl
@[simp] theorem State.withPia_rom (p : Pia) : (s.withPia p).rom = s.rom := rfl
@[simp] theorem State.withPia_image (p : Pia) : (s.withPia p).image = s.image := rfl
@[simp] theorem State.withPia_fdc (p : Pia) : (s.withPia p).fdc = s.fdc := rfl
@[simp] theorem State.withPia_pia (p : Pia) : (s.withPia p).pia = p := rfl
@[simp] theorem State.withPia_kbd (p : Pia) : (s.withPia p).kbd = s.kbd := rfl
@[simp] theorem State.withPia_sched (p : Pia) : (s.withPia p).sched = s.sched := rfl
@[simp] theorem State.withPia_now (p : Pia) : (s.withPia p).now = s.now := rfl
@[simp] theorem State.withPia_countFloor (p : Pia) : (s.withPia p).countFloor = s.countFloor := rfl
@[simp] theorem State.withPia_cpu (p : Pia) : (s.withPia p).cpu = s.cpu := rfl
@[simp] theorem State.withPia_wall (p : Pia) : (s.withPia p).wall = s.wall := rfl
@[simp] theorem State.withPia_schedule (p : Pia) : (s.withPia p).schedule = s.schedule := rfl
@[simp] theorem State.withPia_emitted (p : Pia) : (s.withPia p).emitted = s.emitted := rfl
@[simp] theorem State.withPia_ret (p : Pia) : (s.withPia p).ret = s.ret := rfl
@[simp] theorem State.withPia_draws (p : Pia) : (s.withPia p).draws = s.draws := rfl

/-! ## `State.withKbd` -/

@[simp] theorem State.withKbd_cfg (k : Kbd) : (s.withKbd k).cfg = s.cfg := rfl
@[simp] theorem State.withKbd_ram (k : Kbd) : (s.withKbd k).ram = s.ram := rfl
@[simp] theorem State.withKbd_rom (k : Kbd) : (s.withKbd k).rom = s.rom := rfl
@[simp] theorem State.withKbd_image (k : Kbd) : (s.withKbd k).image = s.image := rfl
@[simp] theorem State.withKbd_fdc (k : Kbd) : (s.withKbd k).fdc = s.fdc := rfl
@[simp] theorem State.withKbd_pia (k : Kbd) : (s.withKbd k).pia = s.pia := rfl
@[simp] theorem State.withKbd_kbd (k : Kbd) : (s.withKbd k).kbd = k := rfl
@[simp] theorem State.withKbd_sched (k : Kbd) : (s.withKbd k).sched = s.sched := rfl
@[simp] theorem State.withKbd_now (k : Kbd) : (s.withKbd k).now = s.now := rfl
@[simp] theorem State.withKbd_countFloor (k : Kbd) : (s.withKbd k).countFloor = s.countFloor := rfl
@[simp] theorem State.withKbd_cpu (k : Kbd) : (s.withKbd k).cpu = s.cpu := rfl
@[simp] theorem State.withKbd_wall (k : Kbd) : (s.withKbd k).wall = s.wall := rfl
@[simp] theorem State.withKbd_schedule (k : Kbd) : (s.withKbd k).schedule = s.schedule := rfl
@[simp] theorem State.withKbd_emitted (k : Kbd) : (s.withKbd k).emitted = s.emitted := rfl
@[simp] theorem State.withKbd_ret (k : Kbd) : (s.withKbd k).ret = s.ret := rfl
@[simp] theorem State.withKbd_draws (k : Kbd) : (s.withKbd k).draws = s.draws := rfl

/-! ## `State.withSched` -/

@[simp] theorem State.withSched_cfg (c : Sched) : (s.withSched c).cfg = s.cfg := rfl
@[simp] theorem State.withSched_ram (c : Sched) : (s.withSched c).ram = s.ram := rfl
@[simp] theorem State.withSched_rom (c : Sched) : (s.withSched c).rom = s.rom := rfl
@[simp] theorem State.withSched_image (c : Sched) : (s.withSched c).image = s.image := rfl
@[simp] theorem State.withSched_fdc (c : Sched) : (s.withSched c).fdc = s.fdc := rfl
@[simp] theorem State.withSched_pia (c : Sched) : (s.withSched c).pia = s.pia := rfl
@[simp] theorem State.withSched_kbd (c : Sched) : (s.withSched c).kbd = s.kbd := rfl
@[simp] theorem State.withSched_sched (c : Sched) : (s.withSched c).sched = c := rfl
@[simp] theorem State.withSched_now (c : Sched) : (s.withSched c).now = s.now := rfl
@[simp] theorem State.withSched_countFloor (c : Sched) : (s.withSched c).countFloor = s.countFloor := rfl
@[simp] theorem State.withSched_cpu (c : Sched) : (s.withSched c).cpu = s.cpu := rfl
@[simp] theorem State.withSched_wall (c : Sched) : (s.withSched c).wall = s.wall := rfl
@[simp] theorem State.withSched_schedule (c : Sched) : (s.withSched c).schedule = s.schedule := rfl
@[simp] theorem State.withSched_emitted (c : Sched) : (s.withSched c).emitted = s.emitted := rfl
@[simp] theorem State.withSched_ret (c : Sched) : (s.withSched c).ret = s.ret := rfl
@[simp] theorem State.withSched_draws (c : Sched) : (s.withSched c).draws = s.draws := rfl

/-! ## `State.withNow` -/

@[simp] theorem State.withNow_cfg (c : Cycle) : (s.withNow c).cfg = s.cfg := rfl
@[simp] theorem State.withNow_ram (c : Cycle) : (s.withNow c).ram = s.ram := rfl
@[simp] theorem State.withNow_rom (c : Cycle) : (s.withNow c).rom = s.rom := rfl
@[simp] theorem State.withNow_image (c : Cycle) : (s.withNow c).image = s.image := rfl
@[simp] theorem State.withNow_fdc (c : Cycle) : (s.withNow c).fdc = s.fdc := rfl
@[simp] theorem State.withNow_pia (c : Cycle) : (s.withNow c).pia = s.pia := rfl
@[simp] theorem State.withNow_kbd (c : Cycle) : (s.withNow c).kbd = s.kbd := rfl
@[simp] theorem State.withNow_sched (c : Cycle) : (s.withNow c).sched = s.sched := rfl
@[simp] theorem State.withNow_now (c : Cycle) : (s.withNow c).now = c := rfl
@[simp] theorem State.withNow_countFloor (c : Cycle) : (s.withNow c).countFloor = s.countFloor := rfl
@[simp] theorem State.withNow_cpu (c : Cycle) : (s.withNow c).cpu = s.cpu := rfl
@[simp] theorem State.withNow_wall (c : Cycle) : (s.withNow c).wall = s.wall := rfl
@[simp] theorem State.withNow_schedule (c : Cycle) : (s.withNow c).schedule = s.schedule := rfl
@[simp] theorem State.withNow_emitted (c : Cycle) : (s.withNow c).emitted = s.emitted := rfl
@[simp] theorem State.withNow_ret (c : Cycle) : (s.withNow c).ret = s.ret := rfl
@[simp] theorem State.withNow_draws (c : Cycle) : (s.withNow c).draws = s.draws := rfl

/-! ## `State.drawn` -/

@[simp] theorem State.drawn_cfg : (s.drawn).cfg = s.cfg := rfl
@[simp] theorem State.drawn_ram : (s.drawn).ram = s.ram := rfl
@[simp] theorem State.drawn_rom : (s.drawn).rom = s.rom := rfl
@[simp] theorem State.drawn_image : (s.drawn).image = s.image := rfl
@[simp] theorem State.drawn_fdc : (s.drawn).fdc = s.fdc := rfl
@[simp] theorem State.drawn_pia : (s.drawn).pia = s.pia := rfl
@[simp] theorem State.drawn_kbd : (s.drawn).kbd = s.kbd := rfl
@[simp] theorem State.drawn_sched : (s.drawn).sched = s.sched := rfl
@[simp] theorem State.drawn_now : (s.drawn).now = s.now := rfl
@[simp] theorem State.drawn_countFloor : (s.drawn).countFloor = s.countFloor := rfl
@[simp] theorem State.drawn_cpu : (s.drawn).cpu = s.cpu := rfl
@[simp] theorem State.drawn_wall : (s.drawn).wall = s.wall := rfl
@[simp] theorem State.drawn_schedule : (s.drawn).schedule = s.schedule := rfl
@[simp] theorem State.drawn_emitted : (s.drawn).emitted = s.emitted := rfl
@[simp] theorem State.drawn_ret : (s.drawn).ret = s.ret := rfl
@[simp] theorem State.drawn_draws : (s.drawn).draws = s.draws + 1 := rfl

/-! ## `State.emit` -/

@[simp] theorem State.emit_cfg (e : Emit) : (s.emit e).cfg = s.cfg := rfl
@[simp] theorem State.emit_ram (e : Emit) : (s.emit e).ram = s.ram := rfl
@[simp] theorem State.emit_rom (e : Emit) : (s.emit e).rom = s.rom := rfl
@[simp] theorem State.emit_image (e : Emit) : (s.emit e).image = s.image := rfl
@[simp] theorem State.emit_fdc (e : Emit) : (s.emit e).fdc = s.fdc := rfl
@[simp] theorem State.emit_pia (e : Emit) : (s.emit e).pia = s.pia := rfl
@[simp] theorem State.emit_kbd (e : Emit) : (s.emit e).kbd = s.kbd := rfl
@[simp] theorem State.emit_sched (e : Emit) : (s.emit e).sched = s.sched := rfl
@[simp] theorem State.emit_now (e : Emit) : (s.emit e).now = s.now := rfl
@[simp] theorem State.emit_countFloor (e : Emit) : (s.emit e).countFloor = s.countFloor := rfl
@[simp] theorem State.emit_cpu (e : Emit) : (s.emit e).cpu = s.cpu := rfl
@[simp] theorem State.emit_wall (e : Emit) : (s.emit e).wall = s.wall := rfl
@[simp] theorem State.emit_schedule (e : Emit) : (s.emit e).schedule = s.schedule := rfl
@[simp] theorem State.emit_emitted (e : Emit) : (s.emit e).emitted = s.emitted ++ [e] := rfl
@[simp] theorem State.emit_ret (e : Emit) : (s.emit e).ret = s.ret := rfl
@[simp] theorem State.emit_draws (e : Emit) : (s.emit e).draws = s.draws := rfl

/-! ## `State.atCount` -/

@[simp] theorem State.atCount_cfg (c : Cycle) : (s.atCount c).cfg = s.cfg := rfl
@[simp] theorem State.atCount_ram (c : Cycle) : (s.atCount c).ram = s.ram := rfl
@[simp] theorem State.atCount_rom (c : Cycle) : (s.atCount c).rom = s.rom := rfl
@[simp] theorem State.atCount_image (c : Cycle) : (s.atCount c).image = s.image := rfl
@[simp] theorem State.atCount_fdc (c : Cycle) : (s.atCount c).fdc = s.fdc := rfl
@[simp] theorem State.atCount_pia (c : Cycle) : (s.atCount c).pia = s.pia := rfl
@[simp] theorem State.atCount_kbd (c : Cycle) : (s.atCount c).kbd = s.kbd := rfl
@[simp] theorem State.atCount_sched (c : Cycle) : (s.atCount c).sched = s.sched := rfl
@[simp] theorem State.atCount_now (c : Cycle) : (s.atCount c).now = laterCount s.countFloor c := rfl
@[simp] theorem State.atCount_countFloor (c : Cycle) : (s.atCount c).countFloor = laterCount s.countFloor c := rfl
@[simp] theorem State.atCount_cpu (c : Cycle) : (s.atCount c).cpu = s.cpu := rfl
@[simp] theorem State.atCount_wall (c : Cycle) : (s.atCount c).wall = s.wall := rfl
@[simp] theorem State.atCount_schedule (c : Cycle) : (s.atCount c).schedule = s.schedule := rfl
@[simp] theorem State.atCount_emitted (c : Cycle) : (s.atCount c).emitted = s.emitted := rfl
@[simp] theorem State.atCount_ret (c : Cycle) : (s.atCount c).ret = s.ret := rfl
@[simp] theorem State.atCount_draws (c : Cycle) : (s.atCount c).draws = s.draws := rfl

/-! ## `callCpuReset` -/

@[simp] theorem callCpuReset_cfg : (callCpuReset s).cfg = s.cfg := rfl
@[simp] theorem callCpuReset_ram : (callCpuReset s).ram = s.ram := rfl
@[simp] theorem callCpuReset_rom : (callCpuReset s).rom = s.rom := rfl
@[simp] theorem callCpuReset_image : (callCpuReset s).image = s.image := rfl
@[simp] theorem callCpuReset_fdc : (callCpuReset s).fdc = s.fdc := rfl
@[simp] theorem callCpuReset_pia : (callCpuReset s).pia = s.pia := rfl
@[simp] theorem callCpuReset_kbd : (callCpuReset s).kbd = s.kbd := rfl
@[simp] theorem callCpuReset_sched : (callCpuReset s).sched = s.sched := rfl
@[simp] theorem callCpuReset_now : (callCpuReset s).now = s.now := rfl
@[simp] theorem callCpuReset_countFloor : (callCpuReset s).countFloor = 0 := rfl
@[simp] theorem callCpuReset_cpu : (callCpuReset s).cpu = s.cpu := rfl
@[simp] theorem callCpuReset_wall : (callCpuReset s).wall = s.wall := rfl
@[simp] theorem callCpuReset_schedule : (callCpuReset s).schedule = s.schedule := rfl
@[simp] theorem callCpuReset_emitted : (callCpuReset s).emitted = s.emitted ++ [.cpuReset] := rfl
@[simp] theorem callCpuReset_ret : (callCpuReset s).ret = s.ret := rfl
@[simp] theorem callCpuReset_draws : (callCpuReset s).draws = s.draws := rfl

end Sys2Proof.Machine
end

