-- ==== Sys2Proof/Laws/Ops.lean ====
section
/-! SUPPORT. One lemma for each shared operation that says everything it does: resets, arming, draws, the tick, the FDC
ports, and the keyboard. -/

namespace Sys2Proof.Machine

open Sys2Proof.Config

variable (s : State)

/-! ## Resets -/

theorem fdcReset_eq : fdcReset s = { s with fdc := Fdc.reset } := rfl

theorem piaReset_eq : piaReset s = { s with pia := Pia.reset } := rfl

theorem systemReset_eq :
    systemReset s =
      { s with fdc := Fdc.reset, pia := Pia.reset, emitted := s.emitted ++ [.cpuReset], countFloor := 0 } := rfl

/-! ## The CPU's count (R25) -/

theorem laterCount_left (a b : Cycle) : a.toNat ≤ (laterCount a b).toNat := by
  unfold laterCount; split <;> omega

theorem laterCount_right (a b : Cycle) : b.toNat ≤ (laterCount a b).toNat := by
  unfold laterCount; split <;> omega

theorem laterCount_of_le {a b : Cycle} (h : a.toNat ≤ b.toNat) : laterCount a b = b := if_pos h

theorem laterCount_self (a : Cycle) : laterCount a a = a := if_pos (Nat.le_refl _)

/-- A count that is not below the floor is taken as it is. -/
theorem atCount_of_le {c : Cycle} (h : s.countFloor.toNat ≤ c.toNat) :
    s.atCount c = { s with now := c, countFloor := c } := by
  rw [State.atCount, laterCount_of_le h]

/-! ## Arming and draws -/

theorem armDeadline_inside (h : s.now.toNat + byteLatency < 2 ^ 64) :
    armDeadline s = { s with fdc := { s.fdc with deadline := s.now + 400#64 } } := by
  rw [armDeadline, if_pos h]; rfl

theorem armDeadline_outside (h : ¬ s.now.toNat + byteLatency < 2 ^ 64) :
    armDeadline s = { s with fdc := { s.fdc with deadline := freeCycle s.draws }, draws := s.draws + 1 } := by
  rw [armDeadline, if_neg h]; rfl

/-- Arming changes the deadline and at most the number of draws. -/
theorem armDeadline_spec :
    ∃ d n, armDeadline s = { s with fdc := { s.fdc with deadline := d }, draws := n } := by
  by_cases h : s.now.toNat + byteLatency < 2 ^ 64
  · exact ⟨_, s.draws, armDeadline_inside s h⟩
  · exact ⟨_, _, armDeadline_outside s h⟩

theorem returnDraw_eq :
    returnDraw s = { s with ret := .byte (freeByte s.draws), draws := s.draws + 1 } := rfl

/-! ## The tick -/

theorem tickCountdown_eq :
    tickCountdown s =
      { s with
        fdc := { s.fdc with
          driveCountdown := s.fdc.driveCountdown - 1
          driveReady := s.fdc.driveReady || s.fdc.driveCountdown == 1 } } := by
  unfold tickCountdown
  split
  · rfl
  · have h : s.fdc.driveCountdown = 0 := by omega
    obtain ⟨_, _, _, _, ⟨_, _, _, _, _, _, _, _, _, _, _, _, cd, _, _⟩, _, _, _, _, _, _, _, _, _, _, _⟩ := s
    simp only at h
    subst h
    simp

theorem imageByte_inside (h : s.fdc.byteIndex < s.image.length) :
    imageByte s = (s.image[s.fdc.byteIndex], s) := by
  rw [imageByte, List.getElem?_eq_getElem h]

/-- What tick step 2 can do: nothing, complete, or latch a byte (R182 to R185). -/
theorem tickDeadline_cases (c : Cycle) :
    (deadlineDue c s.fdc = false ∧ tickDeadline c s = s) ∨
    (deadlineDue c s.fdc = true ∧ s.fdc.endIndex ≤ s.fdc.byteIndex ∧ tickDeadline c s = tickComplete s) ∨
    (deadlineDue c s.fdc = true ∧ s.fdc.byteIndex < s.fdc.endIndex ∧ tickDeadline c s = tickTransfer s) := by
  unfold tickDeadline
  split
  · split
    · exact .inr (.inl ⟨by assumption, by assumption, rfl⟩)
    · exact .inr (.inr ⟨by assumption, by omega, rfl⟩)
  · exact .inl ⟨by simpa using ‹¬ deadlineDue c s.fdc = true›, rfl⟩

/-- The latching of a byte changes the FDC and at most the number of draws, and calls the NMI once. -/
theorem tickTransfer_spec :
    ∃ b n, tickTransfer s =
      { s with
        fdc := { s.fdc with
          nextByte := b, byteIndex := s.fdc.byteIndex + 1, status := statusTransfer s.cfg, deadline := 0#64 }
        emitted := s.emitted ++ [.nmi]
        draws := n } := by
  unfold tickTransfer imageByte
  cases s.image[s.fdc.byteIndex]? with
  | none => exact ⟨_, _, rfl⟩
  | some b => exact ⟨b, s.draws, rfl⟩

theorem tickTransfer_inside (h : s.fdc.byteIndex < s.image.length) :
    tickTransfer s =
      { s with
        fdc := { s.fdc with
          nextByte := s.image[s.fdc.byteIndex], byteIndex := s.fdc.byteIndex + 1
          status := statusTransfer s.cfg, deadline := 0#64 }
        emitted := s.emitted ++ [.nmi] } := by
  unfold tickTransfer
  rw [imageByte_inside s h]
  rfl

theorem tickComplete_eq :
    tickComplete s =
      { s with
        fdc := { s.fdc with status := statusComplete s.cfg, result := 0x00#8, deadline := 0#64 }
        emitted := s.emitted ++ [.nmi] } := rfl

/-- A tick changes the FDC, the calls made (by one NMI exactly where the deadline is due) and at most the number of draws. -/
theorem tick_spec (c : Cycle) :
    ∃ f n, tick c s =
      { s with
        fdc := f
        emitted := if deadlineDue c s.fdc then s.emitted ++ [.nmi] else s.emitted
        draws := n } := by
  have hd : deadlineDue c (tickCountdown s).fdc = deadlineDue c s.fdc := by rw [tickCountdown_eq]; rfl
  rcases tickDeadline_cases (tickCountdown s) c with ⟨h, e⟩ | ⟨h, -, e⟩ | ⟨h, -, e⟩
  · rw [hd] at h
    refine ⟨(tickCountdown s).fdc, s.draws, ?_⟩
    rw [tick, e, h, tickCountdown_eq]
    simp
  · rw [hd] at h
    refine ⟨(tickComplete (tickCountdown s)).fdc, s.draws, ?_⟩
    rw [tick, e, h, tickCountdown_eq, tickComplete_eq]
    simp
  · rw [hd] at h
    obtain ⟨b, n, e'⟩ := tickTransfer_spec (tickCountdown s)
    refine ⟨(tickTransfer (tickCountdown s)).fdc, n, ?_⟩
    rw [tick, e, e', h, tickCountdown_eq]
    simp

end Sys2Proof.Machine
end

