-- ==== Sys2Proof/Laws/Fdc.lean ====
section
/-! SUPPORT. The FDC's port operations and commands, one lemma for each command and each case of a data read. -/

namespace Sys2Proof.Machine

open Sys2Proof.Config

variable (data : Byte) (s : State)

theorem fdcOp_unknown {opcode : BitVec 6} (h : ¬ SupportedOpcode opcode) : fdcOp opcode = .unknown := by
  simp only [SupportedOpcode, not_or] at h
  simp [fdcOp, h]

/-! ## Parameters -/

theorem paramAction_readData (h : s.fdc.command = opReadData) : paramAction data s = readDataParam data s := by
  rw [paramAction, h]; rfl

theorem paramAction_seek (h : s.fdc.command = opSeek) : paramAction data s = seekParam data s := by
  rw [paramAction, h]; rfl

theorem paramAction_readDriveStatus (h : s.fdc.command = opReadDriveStatus) : paramAction data s = s := by
  rw [paramAction, h]; rfl

theorem paramAction_specify (h : s.fdc.command = opSpecify) : paramAction data s = s := by
  rw [paramAction, h]; rfl

theorem paramAction_writeSpecial (h : s.fdc.command = opWriteSpecial) :
    paramAction data s = writeSpecialParam data s := by
  rw [paramAction, h]; rfl

theorem paramAction_unknown (h : ¬ SupportedOpcode s.fdc.command) : paramAction data s = s := by
  rw [paramAction, fdcOp_unknown h]; rfl

theorem seekParam_later (h : s.fdc.paramIndex ≠ 0) : seekParam data s = s := by
  unfold seekParam; split <;> first | contradiction | rfl

theorem readDataParam_later (h : 3 ≤ s.fdc.paramIndex) : readDataParam data s = s := by
  unfold readDataParam; split <;> first | omega | rfl

theorem writeSpecialParam_later (h : 2 ≤ s.fdc.paramIndex) : writeSpecialParam data s = s := by
  unfold writeSpecialParam; split <;> first | omega | rfl

/-- A parameter whose action is none only counts. -/
theorem paramWrite_counts (h : paramAction data s = s) :
    paramWrite data s = { s with fdc := { s.fdc with paramIndex := s.fdc.paramIndex + 1 }, ret := .nothing } := by
  rw [paramWrite, h]; rfl

/-- A parameter's action changes the FDC and at most the number of draws, and keeps command, drive, result, latch, ready
mark and parameter index. -/
theorem paramAction_spec :
    ∃ f n, paramAction data s = { s with fdc := f, draws := n } ∧ f.paramIndex = s.fdc.paramIndex ∧
      f.command = s.fdc.command ∧ f.drive = s.fdc.drive ∧ f.result = s.fdc.result ∧ f.nextByte = s.fdc.nextByte ∧
      f.driveReady = s.fdc.driveReady := by
  unfold paramAction
  split
  · unfold readDataParam readDataStart
    split
    · exact ⟨_, _, rfl, rfl, rfl, rfl, rfl, rfl, rfl⟩
    · exact ⟨_, _, rfl, rfl, rfl, rfl, rfl, rfl, rfl⟩
    · obtain ⟨d, n, e⟩ := armDeadline_spec (s.withFdc
        { s.fdc with
          sectorCount := sectorCountOf s.cfg data
          endIndex := transferEnd (transferStart s.fdc.track s.fdc.sector) (sectorCountOf s.cfg data) s.image.length
          byteIndex := min (transferStart s.fdc.track s.fdc.sector)
            (transferEnd (transferStart s.fdc.track s.fdc.sector) (sectorCountOf s.cfg data) s.image.length)
          status := statusBusy s.cfg })
      exact ⟨_, n, e, rfl, rfl, rfl, rfl, rfl, rfl⟩
    · exact ⟨s.fdc, s.draws, rfl, rfl, rfl, rfl, rfl, rfl, rfl⟩
  · unfold seekParam
    split
    · exact ⟨_, _, rfl, rfl, rfl, rfl, rfl, rfl, rfl⟩
    · exact ⟨s.fdc, s.draws, rfl, rfl, rfl, rfl, rfl, rfl, rfl⟩
  · exact ⟨s.fdc, s.draws, rfl, rfl, rfl, rfl, rfl, rfl, rfl⟩
  · exact ⟨s.fdc, s.draws, rfl, rfl, rfl, rfl, rfl, rfl, rfl⟩
  · unfold writeSpecialParam writeSpecial
    split
    · exact ⟨_, _, rfl, rfl, rfl, rfl, rfl, rfl, rfl⟩
    · split
      · exact ⟨_, _, rfl, rfl, rfl, rfl, rfl, rfl, rfl⟩
      · exact ⟨s.fdc, s.draws, rfl, rfl, rfl, rfl, rfl, rfl, rfl⟩
    · exact ⟨s.fdc, s.draws, rfl, rfl, rfl, rfl, rfl, rfl, rfl⟩
  · exact ⟨s.fdc, s.draws, rfl, rfl, rfl, rfl, rfl, rfl, rfl⟩

/-! ## Data reads -/

/-- A data read with result-full set (R125). -/
theorem dataRead_full (h : resultFull s.cfg s.fdc.status = true) :
    dataRead s =
      { s with fdc := { s.fdc with status := statusIdle }, ret := .byte (freeByte s.draws), draws := s.draws + 1 } := by
  rw [dataRead, if_pos h]; rfl

/-- Any other data read inside the domain of the cycle count (R126). -/
theorem dataRead_latch (h : resultFull s.cfg s.fdc.status = false) (hd : s.now.toNat + byteLatency < 2 ^ 64) :
    dataRead s =
      { s with
        fdc := { s.fdc with status := statusBusy s.cfg, deadline := s.now + 400#64 }, ret := .byte s.fdc.nextByte } := by
  rw [dataRead, if_neg (by simp [h]), armDeadline_inside (s.withFdc { s.fdc with status := statusBusy s.cfg }) hd]; rfl

/-- Any other data read outside it: the deadline is a free value (log 9). -/
theorem dataRead_outside (h : resultFull s.cfg s.fdc.status = false) (hd : ¬ s.now.toNat + byteLatency < 2 ^ 64) :
    dataRead s =
      { s with
        fdc := { s.fdc with status := statusBusy s.cfg, deadline := freeCycle s.draws }, ret := .byte s.fdc.nextByte
        draws := s.draws + 1 } := by
  rw [dataRead, if_neg (by simp [h]), armDeadline_outside (s.withFdc { s.fdc with status := statusBusy s.cfg }) hd]; rfl

end Sys2Proof.Machine
end

