-- ==== Sys2Proof/Laws/Frames.lean ====
section
/-! SUPPORT. What a bus access can change, said once for every port and every target; and what one CPU instruction can. -/

namespace Sys2Proof.Machine

open Sys2Proof.Config

/-- What a bus access leaves alone: everything but RAM, the FDC, the PIA, the returned value and the number of draws. -/
structure BusFrame (s t : State) : Prop where
  cfg      : t.cfg = s.cfg
  rom      : t.rom = s.rom
  image    : t.image = s.image
  kbd      : t.kbd = s.kbd
  sched    : t.sched = s.sched
  now      : t.now = s.now
  floor    : t.countFloor = s.countFloor
  cpu      : t.cpu = s.cpu
  wall     : t.wall = s.wall
  schedule : t.schedule = s.schedule
  emitted  : t.emitted = s.emitted

/-- A bus access that leaves RAM alone too. -/
structure PortFrame (s t : State) : Prop extends BusFrame s t where
  ram : t.ram = s.ram

theorem PortFrame.refl (s : State) : PortFrame s s := ⟨⟨rfl, rfl, rfl, rfl, rfl, rfl, rfl, rfl, rfl, rfl, rfl⟩, rfl⟩

theorem PortFrame.trans {s t u : State} (h : PortFrame s t) (k : PortFrame t u) : PortFrame s u where
  cfg := k.cfg.trans h.cfg
  rom := k.rom.trans h.rom
  image := k.image.trans h.image
  kbd := k.kbd.trans h.kbd
  sched := k.sched.trans h.sched
  now := k.now.trans h.now
  floor := k.floor.trans h.floor
  cpu := k.cpu.trans h.cpu
  wall := k.wall.trans h.wall
  schedule := k.schedule.trans h.schedule
  emitted := k.emitted.trans h.emitted
  ram := k.ram.trans h.ram

/-- Changing the FDC, the PIA, the returned value and the draws is within the frame. -/
theorem PortFrame.of_parts (s : State) (f : Fdc) (p : Pia) (r : Ret) (n : Nat) :
    PortFrame s { s with fdc := f, pia := p, ret := r, draws := n } :=
  ⟨⟨rfl, rfl, rfl, rfl, rfl, rfl, rfl, rfl, rfl, rfl, rfl⟩, rfl⟩

theorem returning_frame (s : State) (r : Ret) : PortFrame s (s.returning r) := PortFrame.of_parts s s.fdc s.pia r s.draws

theorem withFdc_frame (s : State) (f : Fdc) : PortFrame s (s.withFdc f) := PortFrame.of_parts s f s.pia s.ret s.draws

theorem withPia_frame (s : State) (p : Pia) : PortFrame s (s.withPia p) := PortFrame.of_parts s s.fdc p s.ret s.draws

theorem returnDraw_frame (s : State) : PortFrame s (returnDraw s) := PortFrame.of_parts s s.fdc s.pia _ _

theorem armDeadline_frame (s : State) : PortFrame s (armDeadline s) := by
  obtain ⟨d, n, e⟩ := armDeadline_spec s
  rw [e]
  exact PortFrame.of_parts s _ s.pia s.ret n

theorem commandAction_frame (op : BitVec 6) (s : State) : PortFrame s (commandAction op s) := by
  unfold commandAction
  cases fdcOp op <;> first | exact PortFrame.refl s | exact withFdc_frame s _

theorem readDataParam_frame (data : Byte) (s : State) : PortFrame s (readDataParam data s) := by
  unfold readDataParam
  split
  · exact withFdc_frame s _
  · exact withFdc_frame s _
  · exact (withFdc_frame s _).trans (armDeadline_frame _)
  · exact PortFrame.refl s

theorem writeSpecialParam_frame (data : Byte) (s : State) : PortFrame s (writeSpecialParam data s) := by
  unfold writeSpecialParam writeSpecial
  split
  · exact withFdc_frame s _
  · split <;> first | exact PortFrame.refl s | exact withFdc_frame s _
  · exact PortFrame.refl s

theorem paramAction_frame (data : Byte) (s : State) : PortFrame s (paramAction data s) := by
  unfold paramAction
  cases fdcOp s.fdc.command with
  | readData => exact readDataParam_frame data s
  | seek =>
    change PortFrame s (seekParam data s)
    unfold seekParam
    split <;> first | exact PortFrame.refl s | exact withFdc_frame s _
  | readDriveStatus => exact PortFrame.refl s
  | specify => exact PortFrame.refl s
  | writeSpecial => exact writeSpecialParam_frame data s
  | unknown => exact PortFrame.refl s

theorem commandWrite_frame (data : Byte) (s : State) : PortFrame s (commandWrite data s) :=
  ((withFdc_frame s _).trans (commandAction_frame _ _)).trans (returning_frame _ _)

theorem paramWrite_frame (data : Byte) (s : State) : PortFrame s (paramWrite data s) :=
  ((paramAction_frame data s).trans (withFdc_frame _ _)).trans (returning_frame _ _)

theorem resetPortWrite_frame (data : Byte) (s : State) : PortFrame s (resetPortWrite data s) := by
  unfold resetPortWrite
  split
  · exact returning_frame s _
  · exact (withFdc_frame s _).trans (returning_frame _ _)

theorem dataRead_frame (s : State) : PortFrame s (dataRead s) := by
  unfold dataRead
  split
  · exact (withFdc_frame s _).trans (returnDraw_frame _)
  · exact ((withFdc_frame s _).trans (armDeadline_frame _)).trans (returning_frame _ _)

theorem fdcRead_frame (port : FdcPort) (s : State) : PortFrame s (fdcRead port s) := by
  cases port with
  | command => exact returning_frame s _
  | parameter => exact returning_frame s _
  | resetPort => exact returnDraw_frame s
  | unused => exact returnDraw_frame s
  | data => exact dataRead_frame s

theorem fdcWrite_frame (port : FdcPort) (data : Byte) (s : State) : PortFrame s (fdcWrite port data s) := by
  cases port with
  | command => exact commandWrite_frame data s
  | parameter => exact paramWrite_frame data s
  | resetPort => exact resetPortWrite_frame data s
  | unused => exact returning_frame s _
  | data => exact returning_frame s _

theorem piaRead_frame (port : PiaPort) (s : State) : PortFrame s (piaRead port s) := by
  cases port with
  | portA => exact returning_frame s _
  | portB => exact (withPia_frame s _).trans (returning_frame _ _)
  | portC => exact (withPia_frame s _).trans (returning_frame _ _)
  | control => exact returning_frame s _

theorem piaWrite_frame (port : PiaPort) (data : Byte) (s : State) : PortFrame s (piaWrite port data s) := by
  cases port <;> exact (withPia_frame s _).trans (returning_frame _ _)

/-- A bus read changes at most the FDC, the PIA, the returned value and the number of draws. -/
theorem busRead_frame (addr : Addr) (s : State) : PortFrame s (busRead addr s) := by
  unfold busRead
  cases target s.cfg addr with
  | ram => exact returning_frame s _
  | rom => exact returning_frame s _
  | unmapped => exact returning_frame s _
  | fdc port => exact fdcRead_frame port s
  | fdcHole => exact returning_frame s _
  | pia port => exact piaRead_frame port s

/-- Only an address above RAM_HI can decode to ROM or to no RAM; one that decodes to RAM is at most RAM_HI (R100). -/
theorem target_ram_inside {p : Params} {addr : Addr} (h : target p addr = .ram) : addr.toNat ≤ ramHi := by
  unfold target at h
  have hr : region p addr = .ram := by
    revert h
    cases region p addr <;> simp
    · cases fdcPortAt (fdcOffset p addr) <;> simp
    · cases piaPortAt (piaOffset p addr) <;> simp
  revert hr
  unfold region
  split_ifs with h1 h2 h3 h4 <;> simp
  exact h2.2

/-- A bus write stores one RAM byte, at an address of RAM, or leaves RAM alone. -/
theorem busWrite_cases (addr : Addr) (data : Byte) (s : State) :
    (target s.cfg addr = .ram ∧ busWrite addr data s = { s with ram := s.ram.write addr.toNat data, ret := .nothing }) ∨
    (target s.cfg addr ≠ .ram ∧ PortFrame s (busWrite addr data s)) := by
  unfold busWrite
  cases h : target s.cfg addr with
  | ram => exact .inl ⟨rfl, rfl⟩
  | rom => exact .inr ⟨by simp, returning_frame s _⟩
  | unmapped => exact .inr ⟨by simp, returning_frame s _⟩
  | fdc port => exact .inr ⟨by simp, fdcWrite_frame port data s⟩
  | fdcHole => exact .inr ⟨by simp, returning_frame s _⟩
  | pia port => exact .inr ⟨by simp, piaWrite_frame port data s⟩

theorem busWrite_frame (addr : Addr) (data : Byte) (s : State) : BusFrame s (busWrite addr data s) := by
  rcases busWrite_cases addr data s with ⟨-, e⟩ | ⟨-, h⟩
  · rw [e]; exact ⟨rfl, rfl, rfl, rfl, rfl, rfl, rfl, rfl, rfl, rfl, rfl⟩
  · exact h.toBusFrame

/-! ## One CPU instruction -/

/-- What a CPU instruction leaves alone: everything a bus access does, but the cycle count, its
floor and the supplied instructions. -/
structure CpuFrame (s t : State) : Prop where
  cfg      : t.cfg = s.cfg
  rom      : t.rom = s.rom
  image    : t.image = s.image
  kbd      : t.kbd = s.kbd
  sched    : t.sched = s.sched
  wall     : t.wall = s.wall
  schedule : t.schedule = s.schedule
  emitted  : t.emitted = s.emitted

theorem CpuFrame.refl (s : State) : CpuFrame s s := ⟨rfl, rfl, rfl, rfl, rfl, rfl, rfl, rfl⟩

theorem CpuFrame.trans {s t u : State} (h : CpuFrame s t) (k : CpuFrame t u) : CpuFrame s u where
  cfg := k.cfg.trans h.cfg
  rom := k.rom.trans h.rom
  image := k.image.trans h.image
  kbd := k.kbd.trans h.kbd
  sched := k.sched.trans h.sched
  wall := k.wall.trans h.wall
  schedule := k.schedule.trans h.schedule
  emitted := k.emitted.trans h.emitted

theorem BusFrame.toCpuFrame {s t : State} (h : BusFrame s t) : CpuFrame s t :=
  ⟨h.cfg, h.rom, h.image, h.kbd, h.sched, h.wall, h.schedule, h.emitted⟩

theorem atCount_cpuFrame (s : State) (c : Cycle) : CpuFrame s (s.atCount c) := ⟨rfl, rfl, rfl, rfl, rfl, rfl, rfl, rfl⟩

theorem busAccess_frame (a : BusAccess) (s : State) : CpuFrame s (busAccess a s) := by
  unfold busAccess
  cases a.dir with
  | read => exact (atCount_cpuFrame s a.now).trans (busRead_frame _ _).toBusFrame.toCpuFrame
  | write => exact (atCount_cpuFrame s a.now).trans (busWrite_frame _ _ _).toCpuFrame
  | fetch => exact (atCount_cpuFrame s a.now).trans (busRead_frame _ _).toBusFrame.toCpuFrame

theorem runAccesses_frame (as : List BusAccess) (s : State) : CpuFrame s (runAccesses as s).1 := by
  induction as generalizing s with
  | nil => exact CpuFrame.refl s
  | cons a as ih => exact (busAccess_frame a s).trans (ih _)

theorem nextInstr_frame (s : State) : CpuFrame s (nextInstr s).2 := by
  unfold nextInstr
  cases s.cpu <;> exact ⟨rfl, rfl, rfl, rfl, rfl, rfl, rfl, rfl⟩

/-- A CPU instruction changes at most RAM, the FDC, the PIA, the cycle count, its floor, the supplied instructions, the returned value
and the number of draws. -/
theorem executeInstr_frame (s : State) : CpuFrame s (executeInstr s) :=
  ((nextInstr_frame s).trans (runAccesses_frame _ _)).trans
    ⟨rfl, rfl, rfl, rfl, rfl, rfl, rfl, rfl⟩

/-! ## The CPU's count never goes down (R25) -/

/-- Whether the state t shows a count, with floor, that is not below s's floor. -/
structure CountFrame (s t : State) : Prop where
  same   : t.countFloor = t.now
  rising : s.countFloor.toNat ≤ t.countFloor.toNat

theorem atCount_countFrame (s : State) (c : Cycle) : CountFrame s (s.atCount c) := ⟨rfl, laterCount_left _ _⟩

theorem BusFrame.countFrame {s t u : State} (h : CountFrame s t) (f : BusFrame t u) : CountFrame s u :=
  ⟨by rw [f.now, f.floor]; exact h.same, by rw [f.floor]; exact h.rising⟩

theorem busAccess_countFrame (a : BusAccess) (s : State) : CountFrame s (busAccess a s) := by
  unfold busAccess
  cases a.dir with
  | read => exact (busRead_frame _ _).toBusFrame.countFrame (atCount_countFrame s a.now)
  | write => exact (busWrite_frame _ _ _).countFrame (atCount_countFrame s a.now)
  | fetch => exact (busRead_frame _ _).toBusFrame.countFrame (atCount_countFrame s a.now)

theorem runAccesses_floor (as : List BusAccess) (s : State) :
    s.countFloor.toNat ≤ (runAccesses as s).1.countFloor.toNat := by
  induction as generalizing s with
  | nil => exact Nat.le_refl _
  | cons a as ih => exact (busAccess_countFrame a s).rising.trans (ih _)

/-- A CPU instruction ends at a count, its floor, that is not below the floor before it. -/
theorem executeInstr_countFrame (s : State) : CountFrame s (executeInstr s) := by
  have hn : (nextInstr s).2.countFloor = s.countFloor := by unfold nextInstr; cases s.cpu <;> rfl
  exact ⟨rfl, (hn ▸ runAccesses_floor (nextInstr s).1.accesses (nextInstr s).2).trans (laterCount_left _ _)⟩

/-- Pacing changes at most the pacing state, the supplied wall-clock readings and the number of draws. -/
theorem paceStep_spec (s : State) :
    ∃ pc w n, paceStep s = { s with sched := { s.sched with pace := pc }, wall := w, draws := n } ∧ pc.count < paceEvery := by
  unfold paceStep
  dsimp only
  split
  · unfold wallClock
    cases hw : s.wall with
    | nil => exact ⟨_, s.wall, s.draws + 1, rfl, Nat.zero_lt_succ 99⟩
    | cons w rest => exact ⟨_, rest, s.draws, rfl, Nat.zero_lt_succ 99⟩
  · exact ⟨_, s.wall, s.draws, rfl, Nat.mod_lt _ (by decide)⟩

/-- A Break check changes at most the FDC, the PIA, the calls made, the count's floor and the sample. -/
theorem breakCheck_spec (s : State) :
    breakCheck s =
      if resetRequested s && !s.sched.breakPrev then
        { s with
          fdc := Fdc.reset, pia := Pia.reset, emitted := s.emitted ++ [.cpuReset], countFloor := 0
          sched := { s.sched with breakPrev := resetRequested s } }
      else { s with sched := { s.sched with breakPrev := resetRequested s } } := by
  unfold breakCheck
  dsimp only
  split <;> rfl

end Sys2Proof.Machine
end

