-- ==== Sys2Proof/Laws/Invariant.lean ====
section
/-! SUPPORT. Each operation of the block keeps the machine's invariant: one lemma an operation, from the FDC's part of the
invariant and the frames. -/

namespace Sys2Proof.Machine

open Sys2Proof.Config

/-- The invariant's part about the FDC, for an image of n bytes. -/
structure FdcLegal (p : Params) (n : Nat) (f : Fdc) : Prop where
  status        : f.status ∈ [statusIdle, statusBusy p, statusTransfer p, statusComplete p]
  result        : f.result ∈ [0x00#8, 0x90#8, 0x92#8, 0x94#8, 0x96#8]
  cursorOrdered : f.byteIndex ≤ f.endIndex
  cursorInImage : f.endIndex ≤ n
  countdown     : f.driveCountdown ≤ driveSpinup
  count         : f.sectorCount &&& ~~~p.countMask = 0#8

theorem State.Inv.fdcLegal {s : State} (h : s.Inv) : FdcLegal s.cfg s.image.length s.fdc :=
  ⟨h.statusLegal, h.resultLegal, h.cursorOrdered, h.cursorInImage, h.countdownMax, h.countMasked⟩

/-- The FDC fields that the invariant reads decide its FDC part. -/
theorem FdcLegal.of_eq {p : Params} {n : Nat} {f g : Fdc} (h : FdcLegal p n f) (status : g.status = f.status)
    (result : g.result = f.result) (byteIndex : g.byteIndex = f.byteIndex) (endIndex : g.endIndex = f.endIndex)
    (countdown : g.driveCountdown = f.driveCountdown) (count : g.sectorCount = f.sectorCount) : FdcLegal p n g :=
  ⟨status ▸ h.status, result ▸ h.result, by rw [byteIndex, endIndex]; exact h.cursorOrdered,
    endIndex ▸ h.cursorInImage, countdown ▸ h.countdown, count ▸ h.count⟩

theorem FdcLegal.reset (p : Params) (n : Nat) : FdcLegal p n Fdc.reset := by
  constructor <;> simp [Fdc.reset, statusIdle]

/-- Changes outside what the invariant reads, but for the FDC, whose new record is legal. -/
theorem inv_of_fdcLegal {s t : State} (h : s.Inv) (cfg : t.cfg = s.cfg) (ram : t.ram = s.ram) (rom : t.rom = s.rom)
    (image : t.image = s.image) (kbd : t.kbd = s.kbd) (pace : t.sched.pace = s.sched.pace)
    (count : t.countFloor.toNat ≤ t.now.toNat) (legal : FdcLegal s.cfg s.image.length t.fdc) : t.Inv where
  ramWf := ram ▸ h.ramWf
  romWf := rom ▸ h.romWf
  ramInside := ram ▸ h.ramInside
  statusLegal := by rw [cfg]; exact legal.status
  resultLegal := legal.result
  cursorOrdered := legal.cursorOrdered
  cursorInImage := by rw [image]; exact legal.cursorInImage
  countdownMax := legal.countdown
  countMasked := by rw [cfg]; exact legal.count
  queueBound := by rw [cfg, kbd]; exact h.queueBound
  paceBound := pace ▸ h.paceBound
  countOrdered := count

theorem inv_of_portFrame {s t : State} (h : s.Inv) (f : PortFrame s t) (legal : FdcLegal s.cfg s.image.length t.fdc) : t.Inv :=
  inv_of_fdcLegal h f.cfg f.ram f.rom f.image f.kbd (by rw [f.sched])
    (by rw [f.now, f.floor]; exact h.countOrdered) legal

theorem inv_returning {s : State} (h : s.Inv) (r : Ret) : (s.returning r).Inv :=
  inv_of_portFrame h (returning_frame s r) h.fdcLegal

theorem inv_withPia {s : State} (h : s.Inv) (p : Pia) : (s.withPia p).Inv :=
  inv_of_portFrame h (withPia_frame s p) h.fdcLegal

theorem inv_returnDraw {s : State} (h : s.Inv) : (returnDraw s).Inv :=
  inv_of_portFrame h (returnDraw_frame s) h.fdcLegal

theorem inv_atCount {s : State} (h : s.Inv) (c : Cycle) : (s.atCount c).Inv :=
  inv_of_fdcLegal h rfl rfl rfl rfl rfl rfl (Nat.le_refl _) h.fdcLegal

theorem inv_drawn {s : State} (h : s.Inv) : s.drawn.Inv := inv_of_fdcLegal h rfl rfl rfl rfl rfl rfl h.countOrdered h.fdcLegal

theorem inv_withFdc {s : State} (h : s.Inv) {f : Fdc} (legal : FdcLegal s.cfg s.image.length f) : (s.withFdc f).Inv :=
  inv_of_portFrame h (withFdc_frame s f) legal

theorem inv_withKbd {s : State} (h : s.Inv) {k : Kbd} (bound : k.queue.length ≤ s.cfg.queueCap) : (s.withKbd k).Inv :=
  ⟨h.ramWf, h.romWf, h.ramInside, h.statusLegal, h.resultLegal, h.cursorOrdered, h.cursorInImage, h.countdownMax,
    h.countMasked, bound, h.paceBound, h.countOrdered⟩

theorem inv_armDeadline {s : State} (h : s.Inv) : (armDeadline s).Inv := by
  obtain ⟨d, n, e⟩ := armDeadline_spec s
  rw [e]
  exact inv_of_fdcLegal h rfl rfl rfl rfl rfl rfl h.countOrdered (h.fdcLegal.of_eq rfl rfl rfl rfl rfl rfl)

theorem driveStatusByte_legal (ready : Bool) (track : Byte) :
    driveStatusByte ready track ∈ [0x00#8, 0x90#8, 0x92#8, 0x94#8, 0x96#8] := by
  by_cases h : track = 0#8 <;> cases ready <;> simp [driveStatusByte, h]

theorem inv_dataRead {s : State} (h : s.Inv) : (dataRead s).Inv := by
  obtain ⟨-, hr, hb, he, hc, hk⟩ := h.fdcLegal
  unfold dataRead
  split
  · exact inv_returnDraw (inv_withFdc h ⟨by simp, hr, hb, he, hc, hk⟩)
  · exact inv_returning (inv_armDeadline (inv_withFdc h (f := { s.fdc with status := statusBusy s.cfg })
      ⟨by simp, hr, hb, he, hc, hk⟩)) _

theorem inv_commandWrite {s : State} (h : s.Inv) (data : Byte) : (commandWrite data s).Inv := by
  obtain ⟨hs, hr, hb, he, hc, hk⟩ := h.fdcLegal
  refine inv_returning ?_ _
  unfold commandAction
  cases fdcOp (commandOpcode data) <;> first
    | exact inv_withFdc (inv_withFdc h ⟨hs, hr, hb, he, hc, hk⟩) ⟨hs, driveStatusByte_legal _ _, hb, he, hc, hk⟩
    | exact inv_withFdc h ⟨hs, hr, hb, he, hc, hk⟩

theorem inv_readDataParam {s : State} (h : s.Inv) (data : Byte) : (readDataParam data s).Inv := by
  obtain ⟨hs, hr, hb, he, hc, hk⟩ := h.fdcLegal
  unfold readDataParam
  split
  · exact inv_withFdc h ⟨hs, hr, hb, he, hc, hk⟩
  · exact inv_withFdc h ⟨hs, hr, hb, he, hc, hk⟩
  · refine inv_armDeadline (inv_withFdc h ⟨by simp, hr, Nat.min_le_right _ _, Nat.min_le_right _ _, hc, ?_⟩)
    simp [sectorCountOf, BitVec.and_assoc]
  · exact h

theorem inv_paramAction {s : State} (h : s.Inv) (data : Byte) : (paramAction data s).Inv := by
  obtain ⟨hs, hr, hb, he, hc, hk⟩ := h.fdcLegal
  unfold paramAction
  cases fdcOp s.fdc.command with
  | readData => exact inv_readDataParam h data
  | seek =>
    change (seekParam data s).Inv
    unfold seekParam
    split <;> first | exact h | exact inv_withFdc h ⟨hs, hr, hb, he, hc, hk⟩
  | writeSpecial =>
    change (writeSpecialParam data s).Inv
    unfold writeSpecialParam writeSpecial
    split
    · exact inv_withFdc h ⟨hs, hr, hb, he, hc, hk⟩
    · split
      · exact inv_withFdc h ⟨hs, hr, hb, he, Nat.le_refl _, hk⟩
      · exact h
    · exact h
  | readDriveStatus => exact h
  | specify => exact h
  | unknown => exact h

theorem inv_paramWrite {s : State} (h : s.Inv) (data : Byte) : (paramWrite data s).Inv :=
  inv_returning (s := countParam (paramAction data s))
    (inv_withFdc (inv_paramAction h data) ((inv_paramAction h data).fdcLegal.of_eq rfl rfl rfl rfl rfl rfl)) _

theorem inv_resetPortWrite {s : State} (h : s.Inv) (data : Byte) : (resetPortWrite data s).Inv := by
  unfold resetPortWrite
  split
  · exact inv_returning h _
  · exact inv_returning (inv_withFdc h (FdcLegal.reset _ _)) _

theorem inv_ramStore {s : State} (h : s.Inv) {addr : Addr} (inside : addr.toNat ≤ ramHi) (data : Byte) :
    (ramStore addr data s).Inv where
  ramWf := Memory.wf_write h.ramWf _ _
  romWf := h.romWf
  ramInside := fun c hc => by
    rcases Memory.mem_write hc with ⟨rfl, -⟩ | hc
    · exact inside
    · exact h.ramInside c hc
  statusLegal := h.statusLegal
  resultLegal := h.resultLegal
  cursorOrdered := h.cursorOrdered
  cursorInImage := h.cursorInImage
  countdownMax := h.countdownMax
  countMasked := h.countMasked
  queueBound := h.queueBound
  paceBound := h.paceBound
  countOrdered := h.countOrdered

theorem inv_busRead {s : State} (h : s.Inv) (addr : Addr) : (busRead addr s).Inv := by
  unfold busRead
  cases target s.cfg addr with
  | fdc port =>
    cases port with
    | resetPort => exact inv_returnDraw h
    | unused => exact inv_returnDraw h
    | data => exact inv_dataRead h
    | _ => exact inv_returning h _
  | pia port =>
    cases port with
    | portB => exact inv_returning (inv_withPia h _) _
    | portC => exact inv_returning (inv_withPia h _) _
    | _ => exact inv_returning h _
  | _ => exact inv_returning h _

theorem inv_busWrite {s : State} (h : s.Inv) (addr : Addr) (data : Byte) : (busWrite addr data s).Inv := by
  unfold busWrite
  cases ht : target s.cfg addr with
  | ram => exact inv_ramStore h (target_ram_inside ht) data
  | fdc port =>
    cases port with
    | command => exact inv_commandWrite h data
    | parameter => exact inv_paramWrite h data
    | resetPort => exact inv_resetPortWrite h data
    | _ => exact inv_returning h _
  | pia port => cases port <;> exact inv_returning (inv_withPia h _) _
  | _ => exact inv_returning h _

theorem inv_busAccess {s : State} (h : s.Inv) (a : BusAccess) : (busAccess a s).Inv := by
  unfold busAccess
  cases a.dir with
  | read => exact inv_busRead (inv_atCount h _) _
  | write => exact inv_busWrite (inv_atCount h _) _ _
  | fetch => exact inv_busRead (inv_atCount h _) _

theorem inv_runAccesses {s : State} (h : s.Inv) (as : List BusAccess) : (runAccesses as s).1.Inv := by
  induction as generalizing s with
  | nil => exact h
  | cons a as ih => exact ih (inv_busAccess h a)

theorem inv_executeInstr {s : State} (h : s.Inv) : (executeInstr s).Inv := by
  have hn : (nextInstr s).2.Inv := by
    unfold nextInstr
    cases s.cpu with
    | nil => exact inv_drawn h
    | cons i rest => exact inv_of_fdcLegal h rfl rfl rfl rfl rfl rfl h.countOrdered h.fdcLegal
  exact inv_returning (inv_atCount (inv_runAccesses hn _) _) _

theorem inv_tick {s : State} (h : s.Inv) (c : Cycle) : (tick c s).Inv := by
  have h' : (tickCountdown s).Inv := by
    obtain ⟨hs, hr, hb, he, hc, hk⟩ := h.fdcLegal
    rw [tickCountdown_eq]
    exact inv_of_fdcLegal h rfl rfl rfl rfl rfl rfl h.countOrdered ⟨hs, hr, hb, he, le_trans (Nat.sub_le _ _) hc, hk⟩
  obtain ⟨-, hr, hb, he, hc, hk⟩ := h'.fdcLegal
  rw [tick]
  rcases tickDeadline_cases (tickCountdown s) c with ⟨-, e⟩ | ⟨-, k, e⟩ | ⟨-, k, e⟩ <;> rw [e]
  · exact h'
  · rw [tickComplete_eq]
    exact inv_of_fdcLegal h' rfl rfl rfl rfl rfl rfl h'.countOrdered ⟨by simp, by simp, hb, he, hc, hk⟩
  · obtain ⟨b, n, e⟩ := tickTransfer_spec (tickCountdown s)
    rw [e]
    exact inv_of_fdcLegal h' rfl rfl rfl rfl rfl rfl h'.countOrdered ⟨by simp, hr, k, he, hc, hk⟩

theorem inv_breakCheck {s : State} (h : s.Inv) : (breakCheck s).Inv := by
  rw [breakCheck_spec]
  split
  · exact inv_of_fdcLegal h rfl rfl rfl rfl rfl rfl (Nat.zero_le _) (FdcLegal.reset _ _)
  · exact inv_of_fdcLegal h rfl rfl rfl rfl rfl rfl h.countOrdered h.fdcLegal

theorem inv_drainEvents {s : State} (h : s.Inv) : (drainEvents s).Inv := inv_withKbd h (Nat.zero_le _)

theorem inv_sendEvent {s : State} (h : s.Inv) (code : Int) : (sendEvent code s).Inv := by
  unfold sendEvent
  split
  · exact h
  · split
    · exact h
    · exact inv_withKbd h (by simp; omega)

theorem inv_paceStep {s : State} (h : s.Inv) : (paceStep s).Inv := by
  obtain ⟨pc, w, n, e, hp⟩ := paceStep_spec s
  rw [e]
  exact ⟨h.ramWf, h.romWf, h.ramInside, h.statusLegal, h.resultLegal, h.cursorOrdered, h.cursorInImage, h.countdownMax,
    h.countMasked, h.queueBound, hp, h.countOrdered⟩

end Sys2Proof.Machine
end

