-- ==== Sys2Proof/Laws/PerInstr.lean ====
section
/-! SUPPORT. One statement for every instruction, made instruction by instruction: its encoded word has the form of the
channel that carries it. -/

namespace Sys2Proof.Laws.WordShape

/-- A word of its channel's form: four bytes with a direction byte for a bus access, one byte for an FDC command, any integer
for a key event, and a numbered event (log 5). -/
def shaped : OpWord → Bool
  | .bus bytes => bytes.length == 4 && ((bytes.getLast?.bind dirOfByte).isSome)
  | .fdcCmd bytes => bytes.length == 1
  | .keyEvent _ => true
  | .event number _ => number.toNat < 11

/-- The statement about one instruction. -/
def Statement (i : Instr) : Prop := shaped (encode i) = true

theorem ramRead (addr : Addr) : Statement (.ramRead addr) := rfl
theorem ramWrite (addr : Addr) (data : Byte) : Statement (.ramWrite addr data) := rfl
theorem romRead (addr : Addr) : Statement (.romRead addr) := rfl
theorem romWrite (addr : Addr) (data : Byte) : Statement (.romWrite addr data) := rfl
theorem unmappedRead (addr : Addr) : Statement (.unmappedRead addr) := rfl
theorem unmappedWrite (addr : Addr) (data : Byte) : Statement (.unmappedWrite addr data) := rfl
theorem fdcStatusRead (addr : Addr) : Statement (.fdcStatusRead addr) := rfl
theorem fdcCommandWrite (addr : Addr) (data : Byte) : Statement (.fdcCommandWrite addr data) := rfl
theorem fdcResultRead (addr : Addr) : Statement (.fdcResultRead addr) := rfl
theorem fdcParamWrite (addr : Addr) (data : Byte) : Statement (.fdcParamWrite addr data) := rfl
theorem fdcResetRead (addr : Addr) : Statement (.fdcResetRead addr) := rfl
theorem fdcResetWrite (addr : Addr) (data : Byte) : Statement (.fdcResetWrite addr data) := rfl
theorem fdcUnusedRead (addr : Addr) : Statement (.fdcUnusedRead addr) := rfl
theorem fdcUnusedWrite (addr : Addr) (data : Byte) : Statement (.fdcUnusedWrite addr data) := rfl
theorem fdcDataRead (addr : Addr) : Statement (.fdcDataRead addr) := rfl
theorem fdcDataWrite (addr : Addr) (data : Byte) : Statement (.fdcDataWrite addr data) := rfl
theorem fdcHoleRead (addr : Addr) : Statement (.fdcHoleRead addr) := rfl
theorem fdcHoleWrite (addr : Addr) (data : Byte) : Statement (.fdcHoleWrite addr data) := rfl
theorem piaARead (addr : Addr) : Statement (.piaARead addr) := rfl
theorem piaAWrite (addr : Addr) (data : Byte) : Statement (.piaAWrite addr data) := rfl
theorem piaBRead (addr : Addr) : Statement (.piaBRead addr) := rfl
theorem piaBWrite (addr : Addr) (data : Byte) : Statement (.piaBWrite addr data) := rfl
theorem piaCRead (addr : Addr) : Statement (.piaCRead addr) := rfl
theorem piaCWrite (addr : Addr) (data : Byte) : Statement (.piaCWrite addr data) := rfl
theorem piaCtrlRead (addr : Addr) : Statement (.piaCtrlRead addr) := rfl
theorem piaCtrlWrite (addr : Addr) (data : Byte) : Statement (.piaCtrlWrite addr data) := rfl
theorem fetch (addr : Addr) : Statement (.fetch addr) := rfl
theorem fdcReadData (drive : BitVec 2) : Statement (.fdcReadData drive) := rfl
theorem fdcSeek (drive : BitVec 2) : Statement (.fdcSeek drive) := rfl
theorem fdcReadDriveStatus (drive : BitVec 2) : Statement (.fdcReadDriveStatus drive) := rfl
theorem fdcSpecify (drive : BitVec 2) : Statement (.fdcSpecify drive) := rfl
theorem fdcWriteSpecial (drive : BitVec 2) : Statement (.fdcWriteSpecial drive) := rfl
theorem fdcUnknown (drive : BitVec 2) (opcode : BitVec 6) : Statement (.fdcUnknown drive opcode) := rfl
theorem fdcTick (now : Cycle) : Statement (.fdcTick now) := rfl
theorem keyEvent (code : Int) : Statement (.keyEvent code) := rfl
theorem kbdScan (col : Byte) : Statement (.kbdScan col) := rfl
theorem kbdBreak : Statement .kbdBreak := rfl
theorem kbdRepeat : Statement .kbdRepeat := rfl
theorem vduFieldsync (c : Cycle) : Statement (.vduFieldsync c) := rfl
theorem vduSnapshot : Statement .vduSnapshot := rfl
theorem schedIteration : Statement .schedIteration := rfl
theorem schedDrain : Statement .schedDrain := rfl
theorem schedBreakCheck : Statement .schedBreakCheck := rfl
theorem schedTick : Statement .schedTick := rfl
theorem schedExecute : Statement .schedExecute := rfl

end Sys2Proof.Laws.WordShape
end

