-- ==== Sys2Proof/Laws/Returned.lean ====
section
/-! SUPPORT. No operation reads what the last one returned: the value returned before an access, a tick, a Break check or a
CPU instruction makes no difference to it. -/

namespace Sys2Proof.Machine

open Sys2Proof.Config

variable (s : State) (r : Ret)

@[simp] theorem returning_returning (r' : Ret) : (s.returning r).returning r' = s.returning r' := rfl

theorem armDeadline_returning : armDeadline (s.returning r) = (armDeadline s).returning r := by
  by_cases h : s.now.toNat + byteLatency < 2 ^ 64
  · rw [armDeadline_inside _ h, armDeadline_inside (s.returning r) h]; rfl
  · rw [armDeadline_outside _ h, armDeadline_outside (s.returning r) h]; rfl

theorem dataRead_returning : dataRead (s.returning r) = dataRead s := by
  cases h : resultFull s.cfg s.fdc.status with
  | true => rw [dataRead_full _ h, dataRead_full (s.returning r) h]; rfl
  | false =>
    by_cases hd : s.now.toNat + byteLatency < 2 ^ 64
    · rw [dataRead_latch _ h hd, dataRead_latch (s.returning r) h hd]; rfl
    · rw [dataRead_outside _ h hd, dataRead_outside (s.returning r) h hd]; rfl

theorem commandWrite_returning (data : Byte) : commandWrite data (s.returning r) = commandWrite data s := by
  unfold commandWrite commandAction
  cases fdcOp (commandOpcode data) <;> rfl

theorem readDataParam_returning (data : Byte) :
    readDataParam data (s.returning r) = (readDataParam data s).returning r := by
  unfold readDataParam
  rw [State.returning_fdc]
  split
  · rfl
  · rfl
  · rw [readDataStart, readDataStart]
    exact armDeadline_returning (s.withFdc _) r
  · rfl

theorem paramAction_returning (data : Byte) : paramAction data (s.returning r) = (paramAction data s).returning r := by
  unfold paramAction
  rw [State.returning_fdc]
  cases fdcOp s.fdc.command with
  | readData => exact readDataParam_returning s r data
  | seek =>
    change seekParam data (s.returning r) = (seekParam data s).returning r
    unfold seekParam
    rw [State.returning_fdc]
    split <;> rfl
  | writeSpecial =>
    change writeSpecialParam data (s.returning r) = (writeSpecialParam data s).returning r
    unfold writeSpecialParam writeSpecial
    rw [State.returning_fdc]
    split
    · rfl
    · split <;> rfl
    · rfl
  | _ => rfl

theorem paramWrite_returning (data : Byte) : paramWrite data (s.returning r) = paramWrite data s := by
  rw [paramWrite, paramAction_returning]
  rfl

theorem busRead_returning (addr : Addr) : busRead addr (s.returning r) = busRead addr s := by
  unfold busRead
  rw [State.returning_cfg]
  cases target s.cfg addr with
  | fdc port =>
    cases port with
    | data => exact dataRead_returning s r
    | _ => rfl
  | pia port => cases port <;> rfl
  | _ => rfl

theorem busWrite_returning (addr : Addr) (data : Byte) : busWrite addr data (s.returning r) = busWrite addr data s := by
  unfold busWrite
  rw [State.returning_cfg]
  cases target s.cfg addr with
  | fdc port =>
    cases port with
    | command => exact commandWrite_returning s r data
    | parameter => exact paramWrite_returning s r data
    | resetPort =>
      change resetPortWrite data (s.returning r) = resetPortWrite data s
      unfold resetPortWrite
      rw [State.returning_cfg]
      cases s.cfg.resetPortMode <;> rfl
    | _ => rfl
  | pia port => cases port <;> rfl
  | _ => rfl

theorem busAccess_returning (a : BusAccess) : busAccess a (s.returning r) = busAccess a s := by
  unfold busAccess
  cases a.dir with
  | read => exact busRead_returning (s.atCount a.now) r _
  | write => exact busWrite_returning (s.atCount a.now) r _ _
  | fetch => exact busRead_returning (s.atCount a.now) r _

/-- A CPU instruction does not depend on the value returned before it. -/
theorem executeInstr_returning : executeInstr (s.returning r) = executeInstr s := by
  have hn : nextInstr (s.returning r) = ((nextInstr s).1, (nextInstr s).2.returning r) := by
    unfold nextInstr
    rw [State.returning_cpu]
    cases s.cpu <;> rfl
  unfold executeInstr
  rw [hn]
  dsimp only
  cases (nextInstr s).1.accesses with
  | nil => rfl
  | cons a as => simp only [runAccesses, busAccess_returning]

theorem tick_returning (c : Cycle) : tick c (s.returning r) = (tick c s).returning r := by
  have hc : tickCountdown (s.returning r) = (tickCountdown s).returning r := by
    rw [tickCountdown_eq, tickCountdown_eq]; rfl
  have ht : ∀ u : State, tickTransfer (u.returning r) = (tickTransfer u).returning r := by
    intro u
    unfold tickTransfer imageByte
    rw [State.returning_image, State.returning_fdc]
    cases u.image[u.fdc.byteIndex]? <;> rfl
  rw [tick, tick, hc]
  unfold tickDeadline
  rw [State.returning_fdc]
  split
  · split
    · rfl
    · exact ht _
  · rfl

theorem breakCheck_returning : breakCheck (s.returning r) = (breakCheck s).returning r := by
  have hr : resetRequested (s.returning r) = resetRequested s := rfl
  rw [breakCheck_spec, breakCheck_spec, hr, State.returning_sched]
  split <;> rfl

end Sys2Proof.Machine
end

