-- ==== Sys2Proof/Laws/Units.lean ====
section
/-! SUPPORT. The keyboard, the PIA's overlays, the video generator and the conditions of the FDC, each test as a proposition
and each byte by its bits. -/

namespace Sys2Proof.Machine

open Sys2Proof.Config

/-! ## The constants of rule R8 -/

theorem addr_width : Addr = BitVec addrBits := rfl

theorem byte_width : Byte = BitVec dataBits := rfl

/-- The documented FDC ports are the offsets below FDC_PORTS. -/
theorem fdcPortAt_none_iff (offset : Nat) : fdcPortAt offset = none ↔ fdcPorts ≤ offset := by
  match offset with
  | 0 => simp [fdcPortAt, fdcPorts]
  | 1 => simp [fdcPortAt, fdcPorts]
  | 2 => simp [fdcPortAt, fdcPorts]
  | 3 => simp [fdcPortAt, fdcPorts]
  | 4 => simp [fdcPortAt, fdcPorts]
  | offset + 5 => simp [fdcPortAt, fdcPorts]

/-- The PIA registers are the offsets below PIA_PORTS. -/
theorem piaPortAt_none_iff (offset : Nat) : piaPortAt offset = none ↔ piaPorts ≤ offset := by
  match offset with
  | 0 => simp [piaPortAt, piaPorts]
  | 1 => simp [piaPortAt, piaPorts]
  | 2 => simp [piaPortAt, piaPorts]
  | 3 => simp [piaPortAt, piaPorts]
  | offset + 4 => simp [piaPortAt, piaPorts]

/-- A track's bytes are its sectors', and the text grid fills the raster. -/
theorem derived_sizes : sectorsPerTrack * sectorBytes = trackBytes ∧ textCols * cellW = rasterW ∧
    textRows * cellH = rasterH := ⟨rfl, rfl, rfl⟩

/-! ## Tests -/

theorem held_iff (s : State) (role : KeyRole) :
    held s role = true ↔ ∃ k : Fin 61, s.cfg.keymap[k] = role ∧ s.kbd.pressed[k] = true := by
  simp [held]

theorem cellHeld_iff (s : State) (row : Fin 6) (col : Byte) :
    cellHeld s row col = true ↔
      ∃ (k : Fin 61) (c : Fin 10), c.val = col.toNat ∧ s.cfg.keymap[k] = .cell row c ∧ s.kbd.pressed[k] = true := by
  unfold cellHeld
  split
  · rw [held_iff]
    constructor
    · rintro ⟨k, hk, hp⟩
      exact ⟨k, _, rfl, hk, hp⟩
    · rintro ⟨k, c, hc, hk, hp⟩
      exact ⟨k, by rw [hk]; congr 1; exact Fin.ext hc, hp⟩
  · constructor
    · intro h; cases h
    · rintro ⟨k, c, hc, -, -⟩
      exact absurd (hc ▸ c.isLt) ‹_›

theorem fieldSync_iff (p : Params) (c : Cycle) : fieldSync p c = true ↔ c.toNat % p.frameCycles < p.syncCycles := by
  simp [fieldSync]

theorem graphicsSelected_iff (portA : Byte) : graphicsSelected portA = true ↔ portA &&& 0x10#8 ≠ 0#8 := by
  simp [graphicsSelected]

theorem resultFull_iff (p : Params) (status : Byte) : resultFull p status = true ↔ status &&& p.stResultFull ≠ 0#8 := by
  simp [resultFull]

theorem deadlineDue_iff (c : Cycle) (f : Fdc) : deadlineDue c f = true ↔ f.deadline ≠ 0#64 ∧ f.deadline.toNat ≤ c.toNat := by
  simp [deadlineDue, BitVec.ule]

/-! ## Scan byte -/

theorem pullLow_getLsbD (flag : Bool) (bit : Nat) (v : Byte) (i : Nat) (hi : i < 8) :
    (pullLow flag bit v).getLsbD i = (v.getLsbD i && !(flag && i == bit)) := by
  unfold pullLow
  cases flag
  · simp
  · by_cases h : i = bit
    · subst h; simp [hi]
    · simp only [if_true, BitVec.getLsbD_and, BitVec.getLsbD_not, BitVec.getLsbD_shiftLeft, hi]
      have : (i == bit) = false := by simpa using h
      rw [this]
      rcases Nat.lt_or_ge i bit with hl | hl
      · simp [hl]
      · have : i - bit ≠ 0 := by omega
        simp [this]

/-- The row bits pulled low, for any rows. -/
theorem foldl_pullLow_getLsbD (f : Fin 6 → Bool) (rows : List (Fin 6)) (v : Byte) (i : Nat) (hi : i < 8) :
    (rows.foldl (fun v row => pullLow (f row) row.val v) v).getLsbD i =
      (v.getLsbD i && !(rows.any fun row => f row && i == row.val)) := by
  induction rows generalizing v with
  | nil => simp
  | cons r rows ih =>
    rw [List.foldl_cons, ih, pullLow_getLsbD _ _ _ _ hi, List.any_cons, Bool.not_or, Bool.and_assoc]

/-- A row's bit of the scan byte (R226). -/
theorem scanColumn_row (s : State) (col : Byte) (row : Fin 6) :
    (scanColumn s col).getLsbD row.val = !cellHeld s row col := by
  have h8 : row.val < 8 := by have := row.isLt; omega
  have ha : ((List.finRange 6).any fun r => cellHeld s r col && row.val == r.val) = cellHeld s row col := by
    rw [Bool.eq_iff_iff, List.any_eq_true]
    constructor
    · rintro ⟨r, -, hr⟩
      simp only [Bool.and_eq_true, beq_iff_eq] at hr
      rw [Fin.ext hr.2]
      exact hr.1
    · intro h
      exact ⟨row, List.mem_finRange row, by simp [h]⟩
  have h6 : (row.val == 6) = false := by have := row.isLt; simp; omega
  have h7 : (row.val == 7) = false := by have := row.isLt; simp; omega
  rw [scanColumn, pullLow_getLsbD _ _ _ _ h8, pullLow_getLsbD _ _ _ _ h8, foldl_pullLow_getLsbD _ _ _ _ h8, ha, h6, h7]
  have : (0xFF#8).getLsbD row.val = true := by
    have := row.isLt
    interval_cases row.val <;> rfl
  simp [this]

/-- The Ctrl bit of the scan byte (R226). -/
theorem scanColumn_ctrl (s : State) (col : Byte) : (scanColumn s col).getLsbD 6 = !held s .ctrl := by
  have ha : ((List.finRange 6).any fun r => cellHeld s r col && 6 == r.val) = false := by
    rw [List.any_eq_false]
    intro r _ h
    have := r.isLt
    simp at h
    omega
  rw [scanColumn, pullLow_getLsbD _ _ _ _ (by decide), pullLow_getLsbD _ _ _ _ (by decide),
    foldl_pullLow_getLsbD _ _ _ _ (by decide), ha]
  simp

/-- The Shift bit of the scan byte (R226). -/
theorem scanColumn_shift (s : State) (col : Byte) : (scanColumn s col).getLsbD 7 = !held s .shift := by
  have ha : ((List.finRange 6).any fun r => cellHeld s r col && 7 == r.val) = false := by
    rw [List.any_eq_false]
    intro r _ h
    have := r.isLt
    simp at h
    omega
  rw [scanColumn, pullLow_getLsbD _ _ _ _ (by decide), pullLow_getLsbD _ _ _ _ (by decide),
    foldl_pullLow_getLsbD _ _ _ _ (by decide), ha]
  simp

/-! ## Port C -/

theorem portCValue_low (s : State) (i : Nat) (h : i < 6) : (portCValue s).getLsbD i = s.pia.portC.getLsbD i := by
  unfold portCValue
  generalize fieldSync s.cfg s.now = a
  generalize repeatHeld s = b
  interval_cases i <;> cases a <;> cases b <;> simp

theorem portCValue_repeat (s : State) : (portCValue s).getLsbD 6 = !repeatHeld s := by
  unfold portCValue
  generalize fieldSync s.cfg s.now = a
  generalize repeatHeld s = b
  cases a <;> cases b <;> simp

theorem portCValue_sync (s : State) : (portCValue s).getLsbD 7 = !fieldSync s.cfg s.now := by
  unfold portCValue
  generalize fieldSync s.cfg s.now = a
  generalize repeatHeld s = b
  cases a <;> cases b <;> simp

/-! ## Video addresses -/

/-- Every byte the text path reads lies in the first 512 from VIDEO_BASE (R252). -/
theorem textAddress_inside (p : Params) {x y : Nat} (hx : x < 256) (hy : y < 192) :
    p.videoBase ≤ textAddress p x y ∧ textAddress p x y < p.videoBase + 512 := by
  simp only [textAddress, cellH, cellW, textCols]
  omega

/-- Every byte the graphics path reads lies in the first 6,144 from VIDEO_BASE (R256, R257). -/
theorem graphicsAddress_inside (p : Params) (m : BitVec 3) {x y : Nat} (hx : x < 256) (hy : y < 192) :
    p.videoBase ≤ graphicsAddress p (graphicsMode m) x y ∧
      graphicsAddress p (graphicsMode m) x y < p.videoBase + 6144 := by
  unfold graphicsMode
  split <;> simp only [graphicsAddress, logicalX, logicalY, pixelsPerByte, rasterW, rasterH, Nat.reduceDiv] <;> omega

end Sys2Proof.Machine
end

