-- ==== Sys2Proof/Tests/Slice0.lean ====
section
/-! SUPPORT. The model's own tests: ill-formed terms that WellFormed refuses, words written out from the spec's encoding, one
step of each operation with results from 95_test_vectors.md, and a witness for the hypotheses of each statement. -/

namespace Sys2Proof.Tests

open Sys2Proof.Machine Sys2Proof.Config

/-! ## The test machine -/

/-- The KEYMAP example of 95_test_vectors.md §2.5 and §2.6. -/
def testKeymap : Vector KeyRole 61 :=
  ((((((((Vector.replicate 61 KeyRole.nothing).set 10 (.cell 3 2)).set 11 (.cell 0 2)).set 12 (.cell 5 2)).set 20 .ctrl).set 21
    .shift).set 30 .repeatKey).set 40 .breakKey)

/-- The example parameters of 95_test_vectors.md §2.6, with two-tone and four-tone palettes that tell their entries apart. -/
def testCfg : Params :=
  { defaultParams with
    keymap := testKeymap, releaseOffset := 128, queueCap := 2
    palette2 := #v[⟨0, 0, 0, 0⟩, ⟨1, 0, 0, 0⟩]
    palette4 := #v[⟨0, 0, 0, 0⟩, ⟨1, 0, 0, 0⟩, ⟨2, 0, 0, 0⟩, ⟨3, 0, 0, 0⟩] }

/-- The reset state with the example parameters and the two-byte image of program P2. -/
def start : State := State.powerOn testCfg [] [] [0xA5#8, 0x5A#8]

/-- The keys of a list, held. -/
def holding (ks : List (Fin 61)) : State :=
  { start with kbd := { start.kbd with pressed := ks.foldl (fun (v : Vector Bool 61) (k : Fin 61) => v.set k.val true k.isLt) start.kbd.pressed } }

/-- The start state with an FDC record, at a cycle count. -/
def withFdcAt (f : Fdc) (c : Cycle) : State := (start.withFdc f).withNow c

/-- A field of the state an outcome gives. -/
def field {α : Type} (f : State → α) (r : Result) : Option α :=
  match r with
  | .next t => some (f t)
  | .fault _ => none
  | .refused _ => none

/-- Program P2's FDC after iteration 3 (95_test_vectors.md §3). -/
def armed : Fdc :=
  { Fdc.reset with command := 0x13, paramIndex := 3, sectorCount := 1, endIndex := 2, status := 0x80, deadline := 412 }

/-! ## Ill-formed terms -/

theorem test_wf_ram : Instr.WellFormed testCfg (.ramRead 0x0A00) = false ∧ Instr.WellFormed testCfg (.ramWrite 0xA000 0) = false ∧
    Instr.WellFormed testCfg (.ramRead 0x9FFF) = true := by decide

theorem test_wf_rom : Instr.WellFormed testCfg (.romRead 0x9FFF) = false ∧ Instr.WellFormed testCfg (.romWrite 0xB000 0) = false ∧
    Instr.WellFormed testCfg (.romRead 0xAFFF) = true := by decide

theorem test_wf_unmapped : Instr.WellFormed testCfg (.unmappedRead 0xB3FF) = false ∧
    Instr.WellFormed testCfg (.unmappedWrite 0xC000 0) = false ∧ Instr.WellFormed testCfg (.unmappedRead 0xBFFF) = true := by decide

theorem test_wf_fdc_reads : Instr.WellFormed testCfg (.fdcStatusRead 0x0A01) = false ∧
    Instr.WellFormed testCfg (.fdcResultRead 0x0A00) = false ∧ Instr.WellFormed testCfg (.fdcResetRead 0x0A03) = false ∧
    Instr.WellFormed testCfg (.fdcUnusedRead 0x0A02) = false ∧ Instr.WellFormed testCfg (.fdcDataRead 0x0A05) = false ∧
    Instr.WellFormed testCfg (.fdcHoleRead 0x0A04) = false := by decide

theorem test_wf_fdc_writes : Instr.WellFormed testCfg (.fdcCommandWrite 0x0A01 0) = false ∧
    Instr.WellFormed testCfg (.fdcParamWrite 0x0A00 0) = false ∧ Instr.WellFormed testCfg (.fdcResetWrite 0x0A03 0) = false ∧
    Instr.WellFormed testCfg (.fdcUnusedWrite 0x0A02 0) = false ∧ Instr.WellFormed testCfg (.fdcDataWrite 0x0A05 0) = false ∧
    Instr.WellFormed testCfg (.fdcHoleWrite 0x0A04 0) = false := by decide

theorem test_wf_pia : Instr.WellFormed testCfg (.piaARead 0xB001) = false ∧ Instr.WellFormed testCfg (.piaAWrite 0xB001 0) = false ∧
    Instr.WellFormed testCfg (.piaBRead 0xB002) = false ∧ Instr.WellFormed testCfg (.piaBWrite 0xB002 0) = false ∧
    Instr.WellFormed testCfg (.piaCRead 0xB003) = false ∧ Instr.WellFormed testCfg (.piaCWrite 0xB003 0) = false ∧
    Instr.WellFormed testCfg (.piaCtrlRead 0xB000) = false ∧ Instr.WellFormed testCfg (.piaCtrlWrite 0xB000 0) = false := by decide

theorem test_wf_unknown : Instr.WellFormed testCfg (.fdcUnknown 0 0x13) = false ∧ Instr.WellFormed testCfg (.fdcUnknown 3 0x3A) = false ∧
    Instr.WellFormed testCfg (.fdcUnknown 0 0x0B) = true := by decide

/-! ## Words written out from R80 to R88 -/

/-- RAM, ROM, unmapped window and fetch: D-BUS-1, 2, 7 to 10 and 13 to 16. -/
theorem test_decode_memory :
    decode testCfg (.bus [0x00, 0x00, 0x00, 0x00]) = .ok (.ramRead 0x0000) ∧
    decode testCfg (.bus [0xFF, 0x09, 0x5A, 0x01]) = .ok (.ramWrite 0x09FF 0x5A) ∧
    decode testCfg (.bus [0x00, 0x0B, 0x00, 0x00]) = .ok (.ramRead 0x0B00) ∧
    decode testCfg (.bus [0xFF, 0x9F, 0x00, 0x00]) = .ok (.ramRead 0x9FFF) ∧
    decode testCfg (.bus [0x00, 0xA0, 0x00, 0x00]) = .ok (.romRead 0xA000) ∧
    decode testCfg (.bus [0xFF, 0xFF, 0x12, 0x01]) = .ok (.romWrite 0xFFFF 0x12) ∧
    decode testCfg (.bus [0x00, 0xB4, 0x00, 0x00]) = .ok (.unmappedRead 0xB400) ∧
    decode testCfg (.bus [0xFF, 0xBF, 0x12, 0x01]) = .ok (.unmappedWrite 0xBFFF 0x12) ∧
    decode testCfg (.bus [0x01, 0xB0, 0x00, 0x02]) = .ok (.fetch 0xB001) := by decide

/-- FDC ports, aliases among them: D-BUS-3 to 6. -/
theorem test_decode_fdc :
    decode testCfg (.bus [0x00, 0x0A, 0x00, 0x00]) = .ok (.fdcStatusRead 0x0A00) ∧
    decode testCfg (.bus [0x08, 0x0A, 0x2C, 0x01]) = .ok (.fdcCommandWrite 0x0A08 0x2C) ∧
    decode testCfg (.bus [0x01, 0x0A, 0x00, 0x00]) = .ok (.fdcResultRead 0x0A01) ∧
    decode testCfg (.bus [0x01, 0x0A, 0x02, 0x01]) = .ok (.fdcParamWrite 0x0A01 0x02) ∧
    decode testCfg (.bus [0x02, 0x0A, 0x00, 0x00]) = .ok (.fdcResetRead 0x0A02) ∧
    decode testCfg (.bus [0x02, 0x0A, 0x01, 0x01]) = .ok (.fdcResetWrite 0x0A02 0x01) ∧
    decode testCfg (.bus [0x03, 0x0A, 0x00, 0x00]) = .ok (.fdcUnusedRead 0x0A03) ∧
    decode testCfg (.bus [0x03, 0x0A, 0x01, 0x01]) = .ok (.fdcUnusedWrite 0x0A03 0x01) ∧
    decode testCfg (.bus [0x0C, 0x0A, 0x00, 0x00]) = .ok (.fdcDataRead 0x0A0C) ∧
    decode testCfg (.bus [0x04, 0x0A, 0x77, 0x01]) = .ok (.fdcDataWrite 0x0A04 0x77) ∧
    decode testCfg (.bus [0xFF, 0x0A, 0x00, 0x00]) = .ok (.fdcHoleRead 0x0AFF) ∧
    decode testCfg (.bus [0x05, 0x0A, 0x13, 0x01]) = .ok (.fdcHoleWrite 0x0A05 0x13) := by decide

/-- PIA registers, aliases among them: D-BUS-11 and 12. -/
theorem test_decode_pia :
    decode testCfg (.bus [0x00, 0xB0, 0x00, 0x00]) = .ok (.piaARead 0xB000) ∧
    decode testCfg (.bus [0x04, 0xB0, 0x13, 0x01]) = .ok (.piaAWrite 0xB004 0x13) ∧
    decode testCfg (.bus [0x01, 0xB0, 0x00, 0x00]) = .ok (.piaBRead 0xB001) ∧
    decode testCfg (.bus [0x01, 0xB0, 0x00, 0x01]) = .ok (.piaBWrite 0xB001 0x00) ∧
    decode testCfg (.bus [0xFE, 0xB3, 0x00, 0x00]) = .ok (.piaCRead 0xB3FE) ∧
    decode testCfg (.bus [0x02, 0xB0, 0xFF, 0x01]) = .ok (.piaCWrite 0xB002 0xFF) ∧
    decode testCfg (.bus [0x03, 0xB0, 0x00, 0x00]) = .ok (.piaCtrlRead 0xB003) ∧
    decode testCfg (.bus [0xFF, 0xB3, 0x8A, 0x01]) = .ok (.piaCtrlWrite 0xB3FF 0x8A) := by decide

/-- Command bytes (R84, R88; E9): drive in bits 7:6, opcode in bits 5:0. -/
theorem test_decode_commands :
    decode testCfg (.fdcCmd [0x53]) = .ok (.fdcReadData 1) ∧ decode testCfg (.fdcCmd [0xA9]) = .ok (.fdcSeek 2) ∧
    decode testCfg (.fdcCmd [0xEC]) = .ok (.fdcReadDriveStatus 3) ∧ decode testCfg (.fdcCmd [0x35]) = .ok (.fdcSpecify 0) ∧
    decode testCfg (.fdcCmd [0x3A]) = .ok (.fdcWriteSpecial 0) ∧ decode testCfg (.fdcCmd [0xCB]) = .ok (.fdcUnknown 3 0x0B) := by
  decide

/-- The key channel (R87) and the numbered events (log 5). -/
theorem test_decode_events :
    decode testCfg (.keyEvent 138) = .ok (.keyEvent 138) ∧ decode testCfg (.event 0 412) = .ok (.fdcTick 412) ∧
    decode testCfg (.event 1 2) = .ok (.kbdScan 2) ∧ decode testCfg (.event 2 0) = .ok .kbdBreak ∧
    decode testCfg (.event 3 0) = .ok .kbdRepeat ∧ decode testCfg (.event 4 4452) = .ok (.vduFieldsync 4452) ∧
    decode testCfg (.event 5 0) = .ok .vduSnapshot ∧ decode testCfg (.event 6 0) = .ok .schedIteration ∧
    decode testCfg (.event 7 0) = .ok .schedDrain ∧ decode testCfg (.event 8 0) = .ok .schedBreakCheck ∧
    decode testCfg (.event 9 0) = .ok .schedTick ∧ decode testCfg (.event 10 0) = .ok .schedExecute := by decide

/-- Words of no format are rejected by name. -/
theorem test_decode_rejects :
    decode testCfg (.bus [0x00, 0x0A, 0x00]) = .error .busLength ∧
    decode testCfg (.bus [0x00, 0x0A, 0x00, 0x03]) = .error .busDirection ∧
    decode testCfg (.fdcCmd []) = .error .commandLength ∧ decode testCfg (.event 11 0) = .error .eventNumber ∧
    decode testCfg (.event 1 256) = .error .eventOperand ∧ decode testCfg (.event 7 1) = .error .eventOperand := by decide

/-- The opcode table's own match values: an FDC port, a PIA register and an opcode. -/
theorem test_decode_table : decodeTableWord 16 0x0A04 = some (.fdcDataRead 0x0A04) ∧
    decodeTableWord 16 0xB003 = some (.piaCtrlRead 0xB003) ∧ decodeTableWord 8 0x29 = some (.fdcSeek 0) := by decide

/-- The very next step runs a row placed where the step fetches. -/
theorem test_step_runs_fetched_word :
    field (fun t => (t.fdc.command, t.fdc.drive)) (step (State.reset.withFetchWord 8 0xD3)) = some (0x13, 3) := by decide

theorem test_step_refuses_malformed_line :
    step { start with schedule := [⟨0, .bus []⟩] } = .refused (.malformedLine .busLength) := rfl

/-! ## Bus -/

/-- D-BUS-17. -/
theorem test_ram_write : field State.ram (exec (.ramWrite 0x1234 0x5A) start) = some [(0x1234, 0x5A)] := by decide

/-- D-BUS-17. -/
theorem test_ram_read : field State.ret (exec (.ramRead 0x1234) (start.withRam [(0x1233, 0x11), (0x1234, 0x5A)])) =
    some (.byte 0x5A) := by decide

/-- Writing the byte an unlisted address reads as removes the entry. -/
theorem test_ram_write_canonical :
    field State.ram (exec (.ramWrite 0x1234 0x00) (start.withRam [(0x1233, 0x11), (0x1234, 0x5A)])) = some [(0x1233, 0x11)] := by
  decide

/-- R109's example: ROM is read at its own address. -/
theorem test_rom_read : field State.ret (exec (.romRead 0xFFFC) { start with rom := [(0xFFFC, 0x34)] }) = some (.byte 0x34) := by
  decide

/-- D-BUS-21. -/
theorem test_rom_write : field State.rom (exec (.romWrite 0xC000 0x00) { start with rom := [(0xC000, 0x34)] }) =
    some [(0xC000, 0x34)] := by decide

/-- D-BUS-19: whatever ROM holds there. -/
theorem test_unmapped_read : field State.ret (exec (.unmappedRead 0xB800) { start with rom := [(0xB800, 0x34)] }) =
    some (.byte 0x00) := by decide

/-- D-BUS-20. -/
theorem test_unmapped_write : field (fun t => (t.ram, t.rom)) (exec (.unmappedWrite 0xB800 0x12) start) = some ([], []) := by decide

/-- D-BUS-22: a fetch from Port B is a scan. -/
theorem test_fetch_scans : field (fun t => (t.ret, t.pia.portB)) (exec (.fetch 0xB001) start) = some (.byte 0xFF, 0xFF) := by decide

/-- D-BUS-23: a fetch from the data port is a data read. -/
theorem test_fetch_data_port : field (fun t => (t.ret, t.fdc.status, t.fdc.deadline)) (exec (.fetch 0x0A04) (start.withNow 50)) =
    some (.byte 0x00, 0x80, 450) := by decide

/-! ## FDC ports -/

/-- D-PORT-3. -/
theorem test_status_read :
    field (fun t => (t.ret, t.fdc.status)) (exec (.fdcStatusRead 0x0A00) (withFdcAt { Fdc.reset with status := 0x8C } 0)) =
      some (.byte 0x8C, 0x8C) := by decide

/-- D-PORT-16. -/
theorem test_command_write : field (fun t => (t.fdc.command, t.fdc.result)) (exec (.fdcCommandWrite 0x0A08 0x2C) start) =
    some (0x2C, 0x92) := by decide

/-- D-CMD-25: a command byte leaves a running transfer alone. -/
theorem test_command_write_keeps_transfer :
    field (fun t => (t.fdc.deadline, t.fdc.status, t.fdc.endIndex)) (exec (.fdcCommandWrite 0x0A00 0x2C) (withFdcAt armed 20)) =
      some (412, 0x80, 2) := by decide

/-- D-PORT-4. -/
theorem test_result_read :
    field State.ret (exec (.fdcResultRead 0x0A01) (withFdcAt { Fdc.reset with result := 0x96 } 0)) = some (.byte 0x96) := by decide

/-- D-CMD-7, on the two-byte image: the record size is ignored, both ends are clamped, and the deadline is 1000 + 400. -/
theorem test_param_write_starts :
    field (fun t => (t.fdc.sectorCount, t.fdc.byteIndex, t.fdc.endIndex, t.fdc.deadline, t.fdc.status))
      (exec (.fdcParamWrite 0x0A01 0x21) (withFdcAt { Fdc.reset with command := 0x13, paramIndex := 2, track := 2 } 1000)) =
      some (1, 2, 2, 1400, 0x80) := by decide

/-- D-CMD-18. -/
theorem test_param_write_countdown :
    field (fun t => (t.fdc.driveCountdown, t.fdc.paramIndex))
      (exec (.fdcParamWrite 0x0A01 0x40)
        (withFdcAt { Fdc.reset with command := 0x3A, paramIndex := 1, selectedRegister := 0x23 } 0)) = some (200, 2) := by decide

/-- D-PORT-11 and D-PORT-12. -/
theorem test_reset_write : field State.fdc (exec (.fdcResetWrite 0x0A02 0x01) (withFdcAt armed 0)) = some armed ∧
    field State.fdc (exec (.fdcResetWrite 0x0A02 0x01)
      { withFdcAt armed 0 with cfg := { testCfg with resetPortMode := .reset } }) = some Fdc.reset := by decide

/-- D-PORT-13: nothing but the draw changes. -/
theorem test_reset_and_unused_reads : field (fun t => (t.fdc, t.draws)) (exec (.fdcResetRead 0x0A02) (withFdcAt armed 0)) = some (armed, 1) ∧
    field (fun t => (t.fdc, t.draws)) (exec (.fdcUnusedRead 0x0A03) (withFdcAt armed 0)) = some (armed, 1) := by decide

/-- D-PORT-10 and D-PORT-15, and the unused port. -/
theorem test_fdc_discarded_writes : field State.fdc (exec (.fdcDataWrite 0x0A04 0x77) start) = some Fdc.reset ∧
    field State.fdc (exec (.fdcUnusedWrite 0x0A03 0x77) start) = some Fdc.reset ∧
    field State.fdc (exec (.fdcHoleWrite 0x0A07 0x13) start) = some Fdc.reset := by decide

/-- D-PORT-14. -/
theorem test_hole_read : field State.ret (exec (.fdcHoleRead 0x0A06) start) = some (.byte 0x00) := by decide

/-- D-PORT-7: an early read returns the latch and moves the deadline. -/
theorem test_data_read_early :
    field (fun t => (t.ret, t.fdc.status, t.fdc.deadline))
      (exec (.fdcDataRead 0x0A04) (withFdcAt { Fdc.reset with status := 0x80, deadline := 1400, nextByte := 0xE5 } 1200)) =
      some (.byte 0xE5, 0x80, 1600) := by decide

/-- D-PORT-8. -/
theorem test_data_read_full :
    field (fun t => (t.fdc.status, t.fdc.deadline))
      (exec (.fdcDataRead 0x0A04) (withFdcAt { Fdc.reset with status := 0x18 } 0)) = some (0x00, 0) := by decide

/-! ## FDC commands -/

/-- D-PORT-2. -/
theorem test_read_data : field (fun t => (t.fdc.command, t.fdc.drive, t.fdc.paramIndex, t.fdc.deadline)) (exec (.fdcReadData 3) start) =
    some (0x13, 3, 0, 0) := by decide

/-- D-CMD-15. -/
theorem test_seek : field (fun t => (t.fdc.track, t.fdc.paramIndex)) (execAll [.fdcSeek 0, .fdcParamWrite 0x0A01 0x27] start) =
    some (39, 1) := by decide

/-- D-CMD-4 and D-CMD-2. -/
theorem test_read_drive_status :
    field (fun t => t.fdc.result) (exec (.fdcReadDriveStatus 3)
      (withFdcAt { Fdc.reset with driveReady := true, track := 3 } 0)) = some 0x94 ∧
    field (fun t => t.fdc.result) (exec (.fdcReadDriveStatus 0) (withFdcAt { Fdc.reset with track := 5 } 0)) = some 0x90 := by decide

/-- D-CMD-17, first parameter. -/
theorem test_specify : field State.fdc (execAll [.fdcSpecify 0, .fdcParamWrite 0x0A01 0x0D] start) =
    some { Fdc.reset with command := 0x35, paramIndex := 1 } := by decide

/-- D-CMD-20: another register starts nothing. -/
theorem test_write_special :
    field State.fdc (execAll [.fdcWriteSpecial 0, .fdcParamWrite 0x0A01 0x24, .fdcParamWrite 0x0A01 0x40] start) =
      some { Fdc.reset with command := 0x3A, selectedRegister := 0x24, paramIndex := 2 } := by decide

/-- D-CMD-23, first parameter. -/
theorem test_unknown : field State.fdc (execAll [.fdcUnknown 0 0x0B, .fdcParamWrite 0x0A01 0x21] start) =
    some { Fdc.reset with command := 0x0B, paramIndex := 1 } := by decide

/-! ## FDC tick -/

/-- D-TICK-9, on the two-byte image: the countdown ends and the transfer branch runs in one tick. -/
theorem test_tick_transfer :
    field (fun t => (t.fdc, t.emitted)) (exec (.fdcTick 412) (withFdcAt { armed with driveCountdown := 1 } 0)) =
      some ({ armed with driveReady := true, nextByte := 0xA5, byteIndex := 1, status := 0x8C, deadline := 0 }, [.cpuReset, .nmi]) := by
  decide

/-- D-TICK-8. -/
theorem test_tick_completes :
    field (fun t => (t.fdc.nextByte, t.fdc.status, t.fdc.result, t.fdc.deadline, t.emitted))
      (exec (.fdcTick 9003) (withFdcAt { Fdc.reset with byteIndex := 2, endIndex := 2, deadline := 9000, nextByte := 0x11 } 0)) =
      some (0x11, 0x18, 0x00, 0, [.cpuReset, .nmi]) := by decide

/-! ## PIA -/

/-- D-PIA-1 and D-PIA-17. -/
theorem test_port_a : field State.ret (execAll [.piaAWrite 0xB000 0x13, .piaARead 0xB004] start) = some (.byte 0x13) := by decide

/-- D-PIA-8: graphics bits do not select the column. -/
theorem test_port_b_read :
    field (fun t => (t.ret, t.pia.portB)) (exec (.piaBRead 0xB001) ((holding [10]).withPia { Pia.reset with portA := 0xF2 })) =
      some (.byte 0xF7, 0xF7) := by decide

/-- D-PIA-9. -/
theorem test_port_b_write : field State.ret (execAll [.piaBWrite 0xB001 0x00, .piaBRead 0xB001] start) = some (.byte 0xFF) := by
  decide

/-- D-PIA-11 and D-PIA-10. -/
theorem test_port_c_read :
    field (fun t => (t.ret, t.pia.portC)) (exec (.piaCRead 0xB002) ((start.withPia { Pia.reset with portC := 0x05 }).withNow 5000)) =
      some (.byte 0xC5, 0xC5) ∧
    field State.ret (exec (.piaCRead 0xB002) ((start.withPia { Pia.reset with portC := 0x05 }).withNow 100)) =
      some (.byte 0x45) := by decide

/-- D-PIA-13: the written high bits never appear. -/
theorem test_port_c_write : field State.ret (execAll [.piaCWrite 0xB002 0xFF, .piaCRead 0xB002] (holding [30])) = some (.byte 0x3F) := by
  decide

/-- D-PIA-16: the 8255's bit-set form is only stored. -/
theorem test_control : field State.pia (exec (.piaCtrlWrite 0xB003 0x0F) start) = some { Pia.reset with control := 0x0F } ∧
    field State.ret (execAll [.piaCtrlWrite 0xB003 0x8A, .piaCtrlRead 0xB003] start) = some (.byte 0x8A) := by decide

/-! ## Keyboard -/

/-- D-KBD-1 and D-KBD-2. -/
theorem test_key_event_queued : field (fun t => t.kbd.queue) (exec (.keyEvent 10) start) = some [⟨10, false⟩] ∧
    field (fun t => t.kbd.queue) (exec (.keyEvent 138) start) = some [⟨10, true⟩] := by decide

/-- D-KBD-3, D-KBD-4, a negative code, and D-KBD-5. -/
theorem test_key_event_dropped : field (fun t => t.kbd.queue) (exec (.keyEvent 61) start) = some [] ∧
    field (fun t => t.kbd.queue) (exec (.keyEvent 200) start) = some [] ∧
    field (fun t => t.kbd.queue) (exec (.keyEvent (-1)) start) = some [] ∧
    field (fun t => t.kbd.queue)
      (exec (.keyEvent 3) (start.withKbd { start.kbd with queue := [⟨1, false⟩, ⟨2, false⟩] })) = some [⟨1, false⟩, ⟨2, false⟩] := by
  decide

/-- D-KBD-9 and D-KBD-11. -/
theorem test_kbd_scan : field State.ret (exec (.kbdScan 2) (holding [11, 12])) = some (.byte 0xDE) ∧
    field State.ret (exec (.kbdScan 15) (holding [10])) = some (.byte 0xFF) := by decide

/-- D-KBD-12. -/
theorem test_kbd_break : field State.ret (exec .kbdBreak (holding [40])) = some (.flag true) ∧
    field State.ret (exec .kbdBreak (holding [30])) = some (.flag false) := by decide

/-- D-KBD-13. -/
theorem test_kbd_repeat : field State.ret (exec .kbdRepeat (holding [30])) = some (.flag true) := by decide

/-- D-KBD-6 and D-KBD-7: the later event decides. -/
theorem test_sched_drain :
    field (fun t => (t.kbd.pressed[10], t.kbd.queue)) (exec .schedDrain (start.withKbd { start.kbd with queue := [⟨10, false⟩, ⟨10, true⟩] })) =
      some (false, []) ∧
    field (fun t => (t.kbd.pressed[10], t.kbd.queue)) (exec .schedDrain (start.withKbd { start.kbd with queue := [⟨10, true⟩, ⟨10, false⟩] })) =
      some (true, []) := by decide

/-! ## Video -/

/-- E6's inverse character in the cell of column 1, row 1: font row 0 of glyph 1 on cell line 3 (R252, R253). -/
theorem test_text_pixel :
    let p : Params := { testCfg with
      font := (Vector.replicate 64 (Vector.replicate 8 0x00)).set 1 ((Vector.replicate 8 0x00).set 0 0x80)
      fontRow := (Vector.replicate 12 none).set 3 (some 0), textLight := ⟨1, 0, 0, 0⟩, textDark := ⟨0, 0, 0, 0⟩ }
    textPixel p [(0x8021, 0x01)] 8 15 = ⟨1, 0, 0, 0⟩ ∧ textPixel p [(0x8021, 0x81)] 8 15 = ⟨0, 0, 0, 0⟩ ∧
      textPixel p [(0x8021, 0x81)] 9 15 = ⟨1, 0, 0, 0⟩ ∧ textPixel p [(0x8021, 0x81)] 8 14 = ⟨1, 0, 0, 0⟩ := by decide

/-- D-VDU-2 and D-VDU-3. -/
theorem test_fieldsync : field State.ret (exec (.vduFieldsync 4451) start) = some (.flag true) ∧
    field State.ret (exec (.vduFieldsync 4452) start) = some (.flag false) := by decide

/-- D-VDU-18 and D-VDU-20. -/
theorem test_graphics_pixel :
    pixel testCfg [(0x8010, 0x1B)] 0x10 15 5 = ⟨3, 0, 0, 0⟩ ∧ pixel testCfg [(0x85FF, 0x01)] 0x70 254 190 = ⟨1, 0, 0, 0⟩ := by decide

/-- D-VDU-11 to D-VDU-15: the block bits of 0x64. -/
theorem test_semigraphics_blocks : semigraphicsOn 0x64 0 3 = true ∧ semigraphicsOn 0x64 3 4 = false ∧ semigraphicsOn 0x64 4 0 = false ∧
    semigraphicsOn 0x64 7 7 = true ∧ semigraphicsOn 0x64 8 0 = false ∧ semigraphicsOn 0x64 11 7 = false := by decide

/-! ## Scheduler -/

/-- D-SCH-2 and D-RST-1: the PIA and the FDC are reset, RAM and keys are not. -/
theorem test_break_check_resets :
    field (fun t => ((t.fdc, t.pia), t.ram, t.emitted))
      (exec .schedBreakCheck { holding [40] with fdc := armed, pia := { Pia.reset with portA := 0x13 }, ram := [(0x1234, 0x5A)] }) =
      some ((Fdc.reset, Pia.reset), [(0x1234, 0x5A)], [.cpuReset, .cpuReset]) := by decide

/-- D-SCH-3: a held key resets once. -/
theorem test_break_check_held :
    field (fun t => (t.fdc, t.sched.breakPrev)) (exec .schedBreakCheck { holding [40] with fdc := armed, sched := ⟨true, ⟨0, 0, 0⟩⟩ }) =
      some (armed, true) := by decide

/-- The tick step ticks at the CPU's current count (R273). -/
theorem test_sched_tick : field (fun t => t.fdc.status) (exec .schedTick (withFdcAt armed 412)) = some 0x8C ∧
    field (fun t => t.fdc.status) (exec .schedTick (withFdcAt armed 411)) = some 0x80 := by decide

/-- Two accesses of one CPU instruction, the second a data read at its own count, and the new cycle count. -/
theorem test_sched_execute :
    field (fun t => (t.ret, t.fdc.deadline, t.now, t.cpu))
      (exec .schedExecute { start with cpu := [⟨[⟨.write, 0xB000, 0x13, 4⟩, ⟨.read, 0xB000, 0, 5⟩, ⟨.read, 0x0A04, 0, 6⟩], 8⟩] }) =
      some (.bytes [0x13, 0x00], 406, 8, []) := by decide

/-- R25: a count below the last one is read as the last one, in an instruction and in a line. -/
theorem test_count_never_falls :
    field State.now (exec .schedExecute { start with countFloor := 8, now := 8, cpu := [⟨[⟨.read, 0xB000, 0, 3⟩], 5⟩] }) = some 8 ∧
    field (fun t => t.fdc.deadline) (step { start with countFloor := 8, now := 8, schedule := [⟨3, .bus [0x04, 0x0A, 0, 0]⟩] }) =
      some 408 := by decide

/-- R331, D34: after a CPU reset the count may start again. -/
theorem test_count_restarts :
    field State.now (execAll [.schedBreakCheck, .schedExecute]
      { holding [40] with countFloor := 8, now := 8, cpu := [⟨[], 5⟩] }) = some 5 := by decide

/-- D-SCH-7: the NMI comes before the CPU reset, and nothing of the transfer is left. -/
theorem test_iteration_order :
    field (fun t => (t.emitted, t.fdc, t.sched.breakPrev, t.now))
      (exec .schedIteration
        { withFdcAt armed 412 with kbd := { start.kbd with queue := [⟨40, false⟩] }, cpu := [⟨[], 416⟩], wall := [0] }) =
      some ([.cpuReset, .nmi, .cpuReset], Fdc.reset, true, 416) := by decide

/-- E7: the five rows of the pacing table, with the reference at 0 and the wall clock at the real elapsed time. -/
theorem test_pacing : paceDecision 200000000 50000000 0 = (-150000000, 0) ∧ paceDecision 200000000 150000000 0 = (0, 50000000) ∧
    paceDecision 200000000 200000000 0 = (0, 0) ∧ paceDecision 200000000 350000000 0 = (150000000, 0) ∧
    paceDecision 200000000 250000000 0 = (0, 0) := by decide

/-! ## Witnesses: for each statement with hypotheses, values that meet them together, at the ends of each clause's range -/

/-- Every FDC record that is legal gives a state that meets the invariant. -/
theorem start_inv (f : Fdc) (c : Cycle) (h : FdcLegal testCfg 2 f) : (withFdcAt f c).Inv :=
  inv_of_fdcLegal (s := start)
    { ramWf := by decide, romWf := by decide, ramInside := by decide, statusLegal := by decide, resultLegal := by decide
      cursorOrdered := by decide, cursorInImage := by decide, countdownMax := by decide, countMasked := by decide
      queueBound := by decide, paceBound := by decide, countOrdered := by decide }
    rfl rfl rfl rfl rfl rfl (Nat.zero_le _) h

theorem armed_legal : FdcLegal testCfg 2 armed := by constructor <;> decide

/-- PowerOnMeetsInvariant. -/
theorem witness_power_on : Memory.wf [(0x0000, 0x01#8), (0x9FFF, 0x5A#8)] ∧ Memory.wf [(0xA000, 0x01#8), (0xFFFF, 0x02#8)] ∧
    ∀ c ∈ ([(0x0000, 0x01#8), (0x9FFF, 0x5A#8)] : Memory), c.1 ≤ ramHi := by decide

/-- StepKeepsInvariant, StepKeepsDecodeRomAndImage: a pending RAM write at RAM_HI, in a state of a running transfer. -/
theorem witness_step : ((withFdcAt armed 20).withFetchWord 32 0x015A9FFF).Inv ∧
    field State.ram (step ((withFdcAt armed 20).withFetchWord 32 0x015A9FFF)) = some [(0x9FFF, 0x5A)] :=
  ⟨inv_of_fdcLegal (start_inv armed 20 armed_legal) rfl rfl rfl rfl rfl rfl (Nat.zero_le _) armed_legal, by decide⟩

/-- StepRunsThePendingLine, each clause. -/
theorem witness_pending_line :
    (start.withFetchWord 8 0xD3).schedule = [⟨0, .fdcCmd [0xD3]⟩] ∧ decode testCfg (.fdcCmd [0xD3]) = .ok (.fdcReadData 3) ∧
    decode testCfg (.bus []) = .error .busLength ∧ start.schedule = [] := by decide

/-- DecodeInvertsEncode and DecodedIsWellFormed: the two ends of the FDC window. -/
theorem witness_decode : Instr.WellFormed testCfg (.fdcStatusRead 0x0A00) = true ∧ Instr.WellFormed testCfg (.fdcHoleWrite 0x0AFF 0xFF) = true ∧
    decode testCfg (.bus [0xFF, 0x0A, 0xFF, 0x01]) = .ok (.fdcHoleWrite 0x0AFF 0xFF) := by decide

/-- FetchIsRead, each clause, at the last alias of the port. -/
theorem witness_fetch : target testCfg 0x0AFC = .fdc .data ∧ target testCfg 0xB3FD = .pia .portB := by decide

/-- RamWriteStoresOneByte: the ends of both RAM stretches. -/
theorem witness_ram : start.Inv ∧ target testCfg 0x0000 = .ram ∧ target testCfg 0x09FF = .ram ∧ target testCfg 0x0B00 = .ram ∧
    target testCfg 0x9FFF = .ram := ⟨start_inv Fdc.reset 0 (FdcLegal.reset _ _), by decide⟩

/-- DefaultAddressMap: the last address of each window, and of each other region. -/
theorem witness_address_map : (31 < 32 ∧ 7 < 8 ∧ (0x0AFF#16).toNat = 0x0A00 + 8 * 31 + 7) ∧
    (255 < 256 ∧ 3 < 4 ∧ (0xB3FF#16).toNat = 0xB000 + 4 * 255 + 3) ∧ region defaultParams 0x9FFF = .ram ∧
    region defaultParams 0xFFFF = .rom ∧ region defaultParams 0xBFFF = .unmapped := by decide

/-- PlainReadsAndHoles: the ends of each region's addresses, and of the holes' offsets. -/
theorem witness_rows : region testCfg 0x0000 = .ram ∧ region testCfg 0x9FFF = .ram ∧ region testCfg 0xA000 = .rom ∧
    region testCfg 0xFFFF = .rom ∧ region testCfg 0xB400 = .unmapped ∧ region testCfg 0xBFFF = .unmapped ∧
    region testCfg 0x0A05 = .fdc ∧ 5 ≤ (0x0A05#16).toNat - testCfg.fdcBase &&& testCfg.fdcMask ∧
    region testCfg 0x0AFF = .fdc ∧ 5 ≤ (0x0AFF#16).toNat - testCfg.fdcBase &&& testCfg.fdcMask := by decide

/-- WritersOfRamAndOfTheCycleCount: a CPU instruction, and a step with and without a CPU reset. -/
theorem witness_counts :
    field (fun t => (t.now, t.countFloor)) (exec .schedExecute { start with cpu := [⟨[], 4⟩] }) = some (4, 4) ∧
    field (fun t => (t.countFloor, t.emits .cpuReset)) (step ((withFdcAt armed 20).withFetchWord 8 0xD3)) = some (20, 1) ∧
    field (fun t => (t.countFloor, t.emits .cpuReset))
      (step { holding [40] with countFloor := 8, now := 8, schedule := [⟨8, .event 8 0⟩] }) = some (0, 2) := by decide

/-- WritersOfRamAndOfTheCycleCount, OnlyTicksRaiseTheNmi, KeyboardWriters: an operation that answers a next state. -/
theorem witness_exec : field State.ret (exec (.fdcDataRead 0x0A04) (withFdcAt armed 0)) = some (.byte 0x00) ∧
    Instr.fdcDataRead 0x0A04 ≠ .schedExecute ∧ Instr.fdcDataRead 0x0A04 ≠ .schedIteration := by decide

/-- OnlyTicksRaiseTheNmi: a due tick raises the count by one. -/
theorem witness_nmi : field (fun t => t.emits .nmi) (exec (.fdcTick 412) (withFdcAt armed 0)) = some 1 ∧
    (withFdcAt armed 0).emits .nmi = 0 := by decide

/-- KeyboardWriters: the key event and the drain. -/
theorem witness_keyboard_writers : field (fun t => t.kbd.queue) (exec (.keyEvent 0) start) = some [⟨0, false⟩] ∧
    field (fun t => t.kbd.queue) (exec .schedDrain (start.withKbd { start.kbd with queue := [⟨0, false⟩] })) = some [] := by decide

/-- ParameterWriteFrame: the form that starts no transfer. -/
theorem witness_parameter_frame : ¬ ((withFdcAt armed 0).fdc.command = opReadData ∧ (withFdcAt armed 0).fdc.paramIndex = 2) := by decide

/-- ExtraParametersAreIgnored, each alternative at its least index. -/
theorem witness_extra_parameters :
    ((withFdcAt armed 0).fdc.command = opReadData ∧ 3 ≤ (withFdcAt armed 0).fdc.paramIndex) ∧
    (let s := withFdcAt { Fdc.reset with command := 0x29, paramIndex := 1 } 0
     s.fdc.command = opSeek ∧ 1 ≤ s.fdc.paramIndex) ∧
    (let s := withFdcAt { Fdc.reset with command := 0x3A, paramIndex := 2 } 0
     s.fdc.command = opWriteSpecial ∧ 2 ≤ s.fdc.paramIndex) ∧
    (withFdcAt { Fdc.reset with command := 0x2C } 0).fdc.command = opReadDriveStatus := by decide

/-- DataReadsWithAFreeValue, each clause; the second at the first count outside the domain. -/
theorem witness_free_data_read : (0x18#8 &&& testCfg.stResultFull ≠ 0) ∧ (0x80#8 &&& testCfg.stResultFull = 0) ∧
    ¬ InDomain 0xFFFFFFFFFFFFFE70 := by decide

/-- DataReadReturnsLatchAndRearms, EarlyDataReadPostponesTheByte: the last count inside the domain, a cursor at its end, the
first tick that completes and the last that does not. -/
theorem witness_data_read : (Fdc.reset.status &&& testCfg.stResultFull = 0) ∧ InDomain 0xFFFFFFFFFFFFFE6F ∧
    Fdc.reset.endIndex ≤ Fdc.reset.byteIndex ∧ (0xFFFFFFFFFFFFFE6F#64).toNat + 400 ≤ (0xFFFFFFFFFFFFFFFF#64).toNat ∧
    (0xFFFFFFFFFFFFFFFE#64).toNat < (0xFFFFFFFFFFFFFE6F#64).toNat + 400 := by decide

/-- StatusResultResetAndUnusedPorts: both modes. -/
theorem witness_reset_modes : testCfg.resetPortMode = .ignore ∧ ({ testCfg with resetPortMode := .reset } : Params).resetPortMode = .reset := by
  decide

/-- SeekSetsTrack, SpecifyOnlyCounts, UnknownCommandIsTolerated: a later parameter, and opcodes beside the supported ones. -/
theorem witness_commands : (0x29#6 = opSeek ∧ (1 : Nat) ≠ 0) ∧ 0x35#6 = opSpecify ∧ ¬ SupportedOpcode 0x00 ∧ ¬ SupportedOpcode 0x12 ∧
    ¬ SupportedOpcode 0x14 ∧ ¬ SupportedOpcode 0x3F := by decide

/-- ReadDriveStatusResult: the four cases of track and ready mark. -/
theorem witness_drive_status :
    field (fun t => t.fdc.result) (exec (.fdcReadDriveStatus 0) (withFdcAt Fdc.reset 0)) = some 0x92 ∧
    field (fun t => t.fdc.result) (exec (.fdcReadDriveStatus 0) (withFdcAt { Fdc.reset with track := 1 } 0)) = some 0x90 ∧
    field (fun t => t.fdc.result) (exec (.fdcReadDriveStatus 0) (withFdcAt { Fdc.reset with driveReady := true } 0)) = some 0x96 ∧
    field (fun t => t.fdc.result) (exec (.fdcReadDriveStatus 0) (withFdcAt { Fdc.reset with driveReady := true, track := 255 } 0)) =
      some 0x94 := by decide

/-- WriteSpecialStartsTheDrive: both clauses, with each half of the condition failing alone. -/
theorem witness_write_special : (0x23#8 = 0x23#8 ∧ (0x40#8).getLsbD 6 = true) ∧ ¬ (0x23#8 = 0x23#8 ∧ (0xBF#8).getLsbD 6 = true) ∧
    ¬ (0x24#8 = 0x23#8 ∧ (0x40#8).getLsbD 6 = true) := by decide

/-- ReadDataStartsTheTransfer. -/
theorem witness_read_data : let s := withFdcAt { Fdc.reset with command := 0x13, paramIndex := 2 } 1000
    s.fdc.command = opReadData ∧ s.fdc.paramIndex = 2 ∧ InDomain s.now := by decide

/-- TickWithoutDueDeadline: no deadline, and the last count before one. -/
theorem witness_tick_not_due : Fdc.reset.deadline = 0 ∧ (411#64).toNat < armed.deadline.toNat := by decide

/-- TickCompletesTheTransfer, TickLatchesTheNextByte, DeadlineFiresOnce: due at the deadline itself. -/
theorem witness_tick_due : (withFdcAt armed 0).Inv ∧ armed.deadline ≠ 0 ∧ armed.deadline.toNat ≤ (412#64).toNat ∧
    armed.byteIndex < armed.endIndex ∧ ({ armed with byteIndex := 2 } : Fdc).endIndex ≤ ({ armed with byteIndex := 2 } : Fdc).byteIndex :=
  ⟨start_inv armed 0 armed_legal, by decide⟩

/-- DriveReadyAtTheTwoHundredthTick. -/
theorem witness_countdown : let f : Fdc := { Fdc.reset with driveCountdown := 200 }
    f.driveCountdown = 200 ∧ f.driveReady = false := by decide

/-- ReadProtocolYieldsTheImage: program P2's transfer, the whole window drained in two rounds. -/
theorem witness_read_protocol : armed.endIndex ≤ start.image.length ∧ FlagsApart testCfg ∧ armed.deadline ≠ 0 ∧
    RoundsSpaced armed.deadline [(412, 416), (816, 820)] ∧
    [((412 : Cycle), (416 : Cycle)), (816, 820)].length ≤ armed.endIndex - armed.byteIndex ∧
    [((412 : Cycle), (416 : Cycle)), (816, 820)].length = armed.endIndex - armed.byteIndex :=
  ⟨by decide, by decide, by decide, ⟨by decide, by decide, by decide, by decide, trivial⟩, by decide, by decide⟩

/-- Program P2's bytes (95_test_vectors.md §3). -/
theorem test_read_protocol :
    (match drainRounds 0x0A04 [(412, 416), (816, 820)] (withFdcAt armed 20) with
      | .next (t, bytes) => some (bytes, t.fdc.deadline, t.emits .nmi)
      | _ => none) = some ([0xA5, 0x5A], 1220, 2) := by decide

/-- KeyEventsAreQueuedOrDropped: the ends of both code ranges with room in the queue, codes just outside them, and a full
queue. -/
theorem witness_key_events : keyCount ≤ testCfg.releaseOffset ∧ start.kbd.queue.length < testCfg.queueCap ∧
    ((60 : Fin 61).val : Int) = 60 ∧ ((0 : Fin 61).val : Int) + testCfg.releaseOffset = 128 ∧
    ((60 : Fin 61).val : Int) + testCfg.releaseOffset = 188 ∧ ((-1 : Int) < 0) ∧
    ((61 : Int) ≤ 61 ∧ (61 : Int) < testCfg.releaseOffset) ∧ (61 : Int) ≤ 127 ∧ (127 : Int) < testCfg.releaseOffset ∧
    (testCfg.releaseOffset : Int) + 61 ≤ 189 ∧
    testCfg.queueCap ≤ ([⟨1, false⟩, ⟨2, false⟩] : List KeyEvent).length := by decide

/-- BreakEdgeResets, HeldBreakResetsOnce: a held Break with either sample, and no Break. -/
theorem witness_break : (∃ k : Fin 61, (holding [40]).cfg.keymap[k] = .breakKey ∧ (holding [40]).kbd.pressed[k] = true) ∧
    (holding [40]).sched.breakPrev = false ∧ ({ holding [40] with sched := ⟨true, ⟨0, 0, 0⟩⟩ } : State).sched.breakPrev = true ∧
    ¬ (∃ k : Fin 61, start.cfg.keymap[k] = .breakKey ∧ start.kbd.pressed[k] = true) :=
  ⟨⟨40, by decide⟩, by decide, by decide, by decide⟩

/-- NmiComesBeforeReset: D-SCH-7's press of Break, still queued. -/
theorem witness_nmi_before_reset :
    let s : State := { withFdcAt armed 412 with kbd := { start.kbd with queue := [⟨40, false⟩] } }
    ∃ u, exec .schedDrain s = .next u ∧ (∃ k : Fin 61, s.cfg.keymap[k] = .breakKey ∧ u.kbd.pressed[k] = true) ∧
      s.sched.breakPrev = false ∧ s.fdc.deadline ≠ 0 ∧ s.fdc.deadline.toNat ≤ s.now.toNat :=
  ⟨_, rfl, ⟨40, by decide⟩, by decide, by decide, by decide⟩

/-- FieldSyncIsPeriodic: the last count of u64 that has a next frame. -/
theorem witness_field_sync : (0xFFFFFFFFFFFFBEE5#64).toNat + testCfg.frameCycles < 2 ^ 64 := by decide

/-- SnapshotIsTheWholeRaster, InverseIsTheComplement, GraphicsPixelsOfModesSevenAndZero, SemigraphicsBlocks: the last pixel,
line, column and mode. -/
theorem witness_pixels : 255 < 256 ∧ 191 < 192 ∧ 11 < 12 ∧ 7 < 8 ∧ ((11 : Fin 12).val = 191 % 12) ∧
    ((7#3).toNat, 256, 192, 1) ∈ [(6, 128, 192, 2), (7, 256, 192, 1)] := by decide

/-- RasterReadsOnlyVideoRam: two RAMs that differ just outside the video bytes. -/
theorem witness_video_ram (a : Nat) (lo : testCfg.videoBase ≤ a) (hi : a < testCfg.videoBase + 6144) :
    Memory.read [(0x7FFF, 0x11#8), (0x8000, 0x22#8)] a = Memory.read [(0x8000, 0x22#8), (0x9800, 0x33#8)] a := by
  change 0x8000 ≤ a at lo
  change a < 0x8000 + 6144 at hi
  simp only [Memory.read]
  split_ifs <;> first | rfl | omega

/-- InverseIsTheComplement: E6's characters, and one with bit 6 set. -/
theorem witness_inverse : (Memory.read [(0x8000, 0x01#8)] (textAddress testCfg 0 0)).getLsbD 6 = false ∧
    Memory.read [(0x8000, 0x81#8)] (textAddress testCfg 0 0) = Memory.read [(0x8000, 0x01#8)] (textAddress testCfg 0 0) ^^^ 0x80 ∧
    (Memory.read [(0x8000, 0x64#8)] (testCfg.videoBase + 0 / 12 * 32 + 0 / 8)).getLsbD 6 = true := by decide

/-- ExecutePerformsTheAccesses: an instruction without an access, one with two, and none supplied. -/
theorem witness_execute : ({ start with cpu := [⟨[], 4⟩] } : State).cpu = ⟨[], 4⟩ :: [] ∧
    ({ start with cpu := [⟨[⟨.fetch, 0xFFFC, 0, 1⟩, ⟨.write, 0x1234, 0x5A, 2⟩], 4⟩] } : State).cpu =
      ⟨⟨.fetch, 0xFFFC, 0, 1⟩ :: [⟨.write, 0x1234, 0x5A, 2⟩], 4⟩ :: [] ∧ start.cpu = [] := by decide

/-- ControlIsStoredAndReadBack: a Port C read, which overlays, is among the port operations. -/
theorem witness_port_operations : Instr.piaCRead 0xB002 ∈
    [Instr.piaARead 0xB002, .piaAWrite 0xB002 0, .piaBRead 0xB002, .piaBWrite 0xB002 0, .piaCRead 0xB002, .piaCWrite 0xB002 0] := by
  decide

end Sys2Proof.Tests
end

section
/-! SUPPORT. The command byte (R84): a command row is the byte on the command port, and what that write latches. -/

namespace Sys2Proof.Machine

variable (data : Byte) (s : State)

/-! ## The command rows -/

/-- A byte whose opcode no command supports selects the unknown row (R88). -/
theorem commandRow_unknown (h : ¬ SupportedOpcode (commandOpcode data)) :
    commandRow data = .fdcUnknown (commandDrive data) (commandOpcode data) := by
  simp only [SupportedOpcode, not_or] at h
  simp [commandRow, h]

/-- A command row is the write of its byte to the command port (R84, R122). -/
theorem exec_commandRow : exec (commandRow data) s = .next (commandWrite data s) := by
  by_cases supported : SupportedOpcode (commandOpcode data)
  · obtain h | h | h | h | h := supported <;> rw [commandRow, commandWrite, h] <;> rfl
  · rw [commandRow_unknown data supported, commandWrite, commandAction, fdcOp_unknown supported]; rfl

/-- The port row of the command port, whichever alias it came through (R105). -/
theorem exec_fdcCommandWrite (addr : Addr) :
    exec (.fdcCommandWrite addr data) s = .next (commandWrite data s) := rfl

/-! ## What a command byte latches -/

/-- No command's action at the command byte changes the latched drive or command. -/
theorem commandAction_latches (opcode : BitVec 6) :
    (commandAction opcode s).fdc.drive = s.fdc.drive ∧ (commandAction opcode s).fdc.command = s.fdc.command := by
  unfold commandAction
  cases fdcOp opcode <;> exact ⟨rfl, rfl⟩

@[simp] theorem commandWrite_drive : (commandWrite data s).fdc.drive = commandDrive data :=
  (commandAction_latches _ _).1

@[simp] theorem commandWrite_command : (commandWrite data s).fdc.command = commandOpcode data :=
  (commandAction_latches _ _).2

end Sys2Proof.Machine

open Sys2Proof Sys2Proof.Machine

/-- Settles O11: the row is the byte's write to the command port, which latches the byte's two fields. -/
theorem commandByteSelectsDriveAndOpcode : Obligations.CommandByteSelectsDriveAndOpcode := by
  intro p addr drive opcode s
  refine ⟨commandRow (drive ++ opcode), commandWrite (drive ++ opcode) s, rfl, exec_commandRow _ s,
    exec_fdcCommandWrite _ s addr, ?_, ?_⟩
  · rw [commandWrite_drive, commandDrive_append]
  · rw [commandWrite_command, commandOpcode_append]

end

section
/-! SUPPORT. What no operation changes once it is loaded: the decode (R113), ROM (R24) and the disk image (R29); that every
operation answers a next state; and what a step can run. -/

namespace Sys2Proof.Machine

/-! ## The frame of the loaded data -/

/-- What is fixed at load: the parameters, ROM and the disk image. -/
structure LoadFrame (s t : State) : Prop where
  cfg   : t.cfg = s.cfg
  rom   : t.rom = s.rom
  image : t.image = s.image

theorem LoadFrame.refl (s : State) : LoadFrame s s := ⟨rfl, rfl, rfl⟩

theorem LoadFrame.trans {s t u : State} (h : LoadFrame s t) (k : LoadFrame t u) : LoadFrame s u :=
  ⟨k.cfg.trans h.cfg, k.rom.trans h.rom, k.image.trans h.image⟩

theorem BusFrame.toLoadFrame {s t : State} (h : BusFrame s t) : LoadFrame s t := ⟨h.cfg, h.rom, h.image⟩

theorem CpuFrame.toLoadFrame {s t : State} (h : CpuFrame s t) : LoadFrame s t := ⟨h.cfg, h.rom, h.image⟩

variable (s : State)

theorem returning_loadFrame (r : Ret) : LoadFrame s (s.returning r) := ⟨rfl, rfl, rfl⟩

theorem tick_loadFrame (c : Cycle) : LoadFrame s (tick c s) := by
  obtain ⟨f, n, e⟩ := tick_spec s c
  rw [e]
  exact ⟨rfl, rfl, rfl⟩

theorem breakCheck_loadFrame : LoadFrame s (breakCheck s) := by
  rw [breakCheck_spec]
  split <;> exact ⟨rfl, rfl, rfl⟩

theorem paceStep_loadFrame : LoadFrame s (paceStep s) := by
  obtain ⟨pc, w, n, e, -⟩ := paceStep_spec s
  rw [e]
  exact ⟨rfl, rfl, rfl⟩

theorem drainEvents_loadFrame : LoadFrame s (drainEvents s) := ⟨rfl, rfl, rfl⟩

theorem sendEvent_loadFrame (code : Int) : LoadFrame s (sendEvent code s) := by
  unfold sendEvent
  split
  · exact LoadFrame.refl s
  · split
    · exact LoadFrame.refl s
    · exact ⟨rfl, rfl, rfl⟩

/-- An iteration is made of operations that keep the loaded data (R270). -/
theorem iteration_loadFrame : LoadFrame s (iteration s) :=
  drainEvents_loadFrame s |>.trans (tick_loadFrame _ _) |>.trans (breakCheck_loadFrame _)
    |>.trans (executeInstr_frame _).toLoadFrame |>.trans (paceStep_loadFrame _)

/-! ## Every operation -/

/-- Every operation answers a next state (R300), in which the loaded data is as before. The operations that branch have
their own frames; the others change only fields outside it. -/
theorem exec_next_loadFrame (i : Instr) : ∃ t, exec i s = .next t ∧ LoadFrame s t := by
  cases i with
  | fdcCommandWrite _ data => exact ⟨_, rfl, (commandWrite_frame data s).toLoadFrame⟩
  | fdcParamWrite _ data => exact ⟨_, rfl, (paramWrite_frame data s).toLoadFrame⟩
  | fdcResetWrite _ data => exact ⟨_, rfl, (resetPortWrite_frame data s).toLoadFrame⟩
  | fdcDataRead _ => exact ⟨_, rfl, (dataRead_frame s).toLoadFrame⟩
  | fetch addr => exact ⟨_, rfl, (busRead_frame addr s).toLoadFrame⟩
  | fdcTick c => exact ⟨_, rfl, (tick_loadFrame s c).trans (returning_loadFrame _ _)⟩
  | keyEvent code => exact ⟨_, rfl, (sendEvent_loadFrame s code).trans (returning_loadFrame _ _)⟩
  | schedIteration => exact ⟨_, rfl, iteration_loadFrame s⟩
  | schedBreakCheck => exact ⟨_, rfl, (breakCheck_loadFrame s).trans (returning_loadFrame _ _)⟩
  | schedTick => exact ⟨_, rfl, (tick_loadFrame s _).trans (returning_loadFrame _ _)⟩
  | schedExecute => exact ⟨_, rfl, (executeInstr_frame s).toLoadFrame⟩
  | _ => exact ⟨_, rfl, rfl, rfl, rfl⟩

theorem exec_completes (i : Instr) : ∃ t, exec i s = .next t := by
  obtain ⟨t, e, -⟩ := exec_next_loadFrame s i
  exact ⟨t, e⟩

variable {s} {t : State}

theorem exec_loadFrame {i : Instr} (h : exec i s = .next t) : LoadFrame s t := by
  obtain ⟨u, e, f⟩ := exec_next_loadFrame s i
  obtain rfl : u = t := by simpa [e] using h
  exact f

/-! ## What a step runs -/

/-- A step that answers a next state ran one iteration with no line pending, or the oldest pending line's instruction
(R92, R277). -/
theorem step_next_cases (h : step s = .next t) :
    (s.schedule = [] ∧ exec .schedIteration s = .next t) ∨
    ∃ l rest i, s.schedule = l :: rest ∧ decode s.cfg l.word = .ok i ∧ exec i (s.taking l rest) = .next t := by
  unfold step at h
  split at h
  case h_1 pending => exact .inl ⟨pending, h⟩
  case h_2 l rest pending =>
    split at h
    case h_1 i word => exact .inr ⟨l, rest, i, pending, word, h⟩
    case h_2 => cases h

theorem step_loadFrame (h : step s = .next t) : LoadFrame s t := by
  obtain ⟨-, run⟩ | ⟨l, rest, i, -, -, run⟩ := step_next_cases h
  · exact exec_loadFrame run
  · have taken : LoadFrame s (s.taking l rest) := ⟨rfl, rfl, rfl⟩
    exact taken.trans (exec_loadFrame run)

end Sys2Proof.Machine

open Sys2Proof Sys2Proof.Machine

/-- Settles O4: every operation keeps the parameters, and the decode is a function of them. -/
theorem stepKeepsDecodeRomAndImage : Obligations.StepKeepsDecodeRomAndImage := by
  intro s t h
  obtain ⟨cfg, rom, image⟩ := step_loadFrame h
  exact ⟨cfg, rom, image, fun a => by rw [cfg], fun a => by rw [cfg]⟩

/-- Settles O9: the word decodes to the triple's own row, and no operation stalls or refuses. -/
theorem everyBusTripleResolves : Obligations.EveryBusTripleResolves := by
  intro p dir addr data
  exact ⟨busRow p dir addr data, decode_busWord p dir addr data, busRow_wellFormed p dir addr data,
    fun s => exec_completes s _⟩

end

section
/-! SUPPORT. The rows that an address of RAM, ROM, the unmapped window or an FDC hole selects (R81, R132). -/

namespace Sys2Proof

open Sys2Proof.Machine

variable {p : Config.Params} {addr : Addr}

theorem readRow_ram (h : region p addr = .ram) : readRow p addr = .ramRead addr := by
  rw [readRow, target_ram h]

theorem readRow_rom (h : region p addr = .rom) : readRow p addr = .romRead addr := by
  rw [readRow, target_rom h]

theorem readRow_unmapped (h : region p addr = .unmapped) : readRow p addr = .unmappedRead addr := by
  rw [readRow, target_unmapped h]

/-- An FDC offset from 5 is past the ports. -/
theorem target_fdcHole_of_le (h : region p addr = .fdc) (past : Config.fdcPorts ≤ fdcOffset p addr) :
    target p addr = .fdcHole :=
  target_fdcHole h ((fdcPortAt_none_iff _).mpr past)

theorem readRow_fdcHole (h : target p addr = .fdcHole) : readRow p addr = .fdcHoleRead addr := by
  rw [readRow, h]

theorem writeRow_fdcHole (h : target p addr = .fdcHole) (data : Byte) :
    writeRow p addr data = .fdcHoleWrite addr data := by
  rw [writeRow, h]

end Sys2Proof

open Sys2Proof Sys2Proof.Machine

/-- Settles O15: each row is one update of the returned value, and the target of the address selects the row. -/
theorem plainReadsAndHoles : Obligations.PlainReadsAndHoles := by
  intro addr data s
  refine ⟨rfl, rfl, rfl, rfl, rfl, readRow_ram, readRow_rom, readRow_unmapped, fun h past => ?_⟩
  have hole : target s.cfg addr = .fdcHole := target_fdcHole_of_le h past
  exact ⟨readRow_fdcHole hole, writeRow_fdcHole hole data⟩

end

section
/-! SUPPORT. The FDC data read that latches (R126): the deadline it arms, and the tick at which a finished transfer
completes (R180, R182). -/

namespace Sys2Proof.Machine

open Sys2Proof.Config

/-! ## The armed deadline -/

theorem resultFull_eq_false_iff (p : Params) (status : Byte) :
    resultFull p status = false ↔ status &&& p.stResultFull = 0#8 := by
  rw [← Bool.not_eq_true, resultFull_iff, not_not]

/-- Inside the domain of the cycle count the sum does not wrap (R166). -/
theorem toNat_add_byteLatency {c : Cycle} (h : InDomain c) : (c + 400#64).toNat = c.toNat + 400 :=
  BitVec.toNat_add_of_lt h

variable (s : State)

/-! ## The due tick at the end of the window -/

theorem tickCountdown_deadlineDue (c : Cycle) : deadlineDue c (tickCountdown s).fdc = deadlineDue c s.fdc := by
  rw [tickCountdown_eq]; rfl

theorem tickDeadline_complete {c : Cycle} (due : deadlineDue c s.fdc = true) (done : s.fdc.endIndex ≤ s.fdc.byteIndex) :
    tickDeadline c s = tickComplete s := by
  rw [tickDeadline, if_pos due, if_pos done]

/-- A due tick with the cursor at its end runs the countdown and completes (R181, R182). -/
theorem exec_fdcTick_complete {c : Cycle} (armed : s.fdc.deadline ≠ 0#64)
    (reached : s.fdc.deadline.toNat ≤ c.toNat) (done : s.fdc.endIndex ≤ s.fdc.byteIndex) :
    exec (.fdcTick c) s = .next
      { s with
        fdc := { s.fdc with
          driveCountdown := s.fdc.driveCountdown - 1
          driveReady := s.fdc.driveReady || s.fdc.driveCountdown == 1
          status := statusComplete s.cfg, result := 0x00#8, deadline := 0#64 }
        emitted := s.emitted ++ [.nmi]
        ret := .nothing } := by
  have due' : deadlineDue c (tickCountdown s).fdc = true := by
    rw [tickCountdown_deadlineDue, deadlineDue_iff]; exact ⟨armed, reached⟩
  have done' : (tickCountdown s).fdc.endIndex ≤ (tickCountdown s).fdc.byteIndex := by rw [tickCountdown_eq]; exact done
  have ticked : tick c s = tickComplete (tickCountdown s) := tickDeadline_complete _ due' done'
  rw [tickComplete_eq, tickCountdown_eq] at ticked
  exact congrArg (fun t : State => Host.Outcome.next (t.returning .nothing)) ticked

end Sys2Proof.Machine

open Sys2Proof Sys2Proof.Machine

/-- Settles O22: the read's next state is `dataRead_latch`'s; its deadline does not wrap, so it is not 0 and the first tick
at or after it is due, which completes a window at its end. -/
theorem dataReadReturnsLatchAndRearms : Obligations.DataReadReturnsLatchAndRearms := by
  intro addr s notFull inside
  have read := dataRead_latch s ((resultFull_eq_false_iff _ _).mpr notFull) inside
  have deadline : (s.now + 400#64).toNat = s.now.toNat + 400 := toNat_add_byteLatency inside
  refine ⟨_, congrArg Host.Outcome.next read, rfl, deadline, fun done c reached => ?_⟩
  have armed : s.now + 400#64 ≠ 0#64 := fun zero => by simp [zero] at deadline
  exact ⟨_, exec_fdcTick_complete _ armed (deadline.trans_le reached) done, rfl, rfl, rfl⟩

end

section
/-! SUPPORT. The commands whose parameters store at most one byte (R153, R155, R161, R162): what the first parameter of Seek
and of Write Special Register stores, and a command byte followed by its first parameter. -/

namespace Sys2Proof.Machine

open Sys2Proof.Config

variable (data : Byte) (s : State)

/-- The first operation of a sequence, once its next state is known. -/
theorem execAll_cons {i : Instr} {rest : List Instr} {s t : State} (h : exec i s = .next t) :
    execAll (i :: rest) s = execAll rest t := by
  rw [execAll, h]

/-! ## Parameter bytes -/

/-- The port row of the parameter port, whichever alias it came through (R105, R124). -/
theorem exec_fdcParamWrite (addr : Addr) : exec (.fdcParamWrite addr data) s = .next (paramWrite data s) := rfl

/-- A parameter byte whose action is none only counts (R124). -/
theorem exec_fdcParamWrite_counts (addr : Addr) (idle : paramAction data s = s) :
    exec (.fdcParamWrite addr data) s = .next
      { s with fdc := { s.fdc with paramIndex := s.fdc.paramIndex + 1 }, ret := .nothing } := by
  rw [exec_fdcParamWrite, paramWrite_counts data s idle]

theorem paramWrite_seek_first (seek : s.fdc.command = opSeek) (first : s.fdc.paramIndex = 0) :
    paramWrite data s = { s with fdc := { s.fdc with paramIndex := 1, track := data }, ret := .nothing } := by
  have stored : paramAction data s = s.withFdc { s.fdc with track := data } := by
    rw [paramAction_seek data s seek, seekParam, first]; rfl
  rw [paramWrite, stored, countParam, State.withFdc_fdc, first]; rfl

theorem paramWrite_writeSpecial_first (special : s.fdc.command = opWriteSpecial) (first : s.fdc.paramIndex = 0) :
    paramWrite data s = { s with fdc := { s.fdc with paramIndex := 1, selectedRegister := data }, ret := .nothing } := by
  have stored : paramAction data s = s.withFdc { s.fdc with selectedRegister := data } := by
    rw [paramAction_writeSpecial data s special, writeSpecialParam, first]; rfl
  rw [paramWrite, stored, countParam, State.withFdc_fdc, first]; rfl

/-! ## Command bytes -/

theorem exec_fdcSeek (drive : BitVec 2) :
    exec (.fdcSeek drive) s = .next ((latchCommand drive opSeek s).returning .nothing) := rfl

theorem exec_fdcReadDriveStatus (drive : BitVec 2) :
    exec (.fdcReadDriveStatus drive) s =
      .next ((readDriveStatusCommand (latchCommand drive opReadDriveStatus s)).returning .nothing) := rfl

theorem exec_fdcSpecify (drive : BitVec 2) :
    exec (.fdcSpecify drive) s = .next ((latchCommand drive opSpecify s).returning .nothing) := rfl

theorem exec_fdcWriteSpecial (drive : BitVec 2) :
    exec (.fdcWriteSpecial drive) s = .next ((latchCommand drive opWriteSpecial s).returning .nothing) := rfl

theorem exec_fdcUnknown (drive : BitVec 2) (opcode : BitVec 6) :
    exec (.fdcUnknown drive opcode) s = .next ((latchCommand drive opcode s).returning .nothing) := rfl

/-! ## Seek to track 0 -/

/-- Seek and its parameter, ahead of any other operations (R155). -/
theorem execAll_seek_param (drive : BitVec 2) (addr : Addr) (rest : List Instr) :
    execAll (.fdcSeek drive :: .fdcParamWrite addr data :: rest) s = execAll rest
      { s with fdc := { s.fdc with command := opSeek, drive := drive, paramIndex := 1, track := data }, ret := .nothing } := by
  rw [execAll_cons (exec_fdcSeek s drive), execAll_cons (exec_fdcParamWrite data _ addr),
    paramWrite_seek_first data _ rfl rfl]
  rfl

/-- Bit 1 of the drive-status byte is the track-0 bit (R157). -/
theorem driveStatusByte_bit1_iff (ready : Bool) (track : Byte) :
    (driveStatusByte ready track).getLsbD 1 = true ↔ track = 0#8 := by
  by_cases h : track = 0#8 <;> cases ready <;> simp [driveStatusByte, h]

end Sys2Proof.Machine

open Sys2Proof Sys2Proof.Machine

/-- Settles O25: the first parameter is the one that acts, and the track it stores is what Read Drive Status tests. -/
theorem seekSetsTrack : Obligations.SeekSetsTrack := by
  intro addr drive drive' data s
  refine ⟨exec_fdcSeek s drive, execAll_seek_param data s drive addr [], fun seek later => ?_, ?_⟩
  · exact exec_fdcParamWrite_counts data s addr
      ((paramAction_seek data s seek).trans (seekParam_later data s later))
  · rw [execAll_seek_param]
    exact ⟨_, execAll_cons (exec_fdcReadDriveStatus _ drive'), (driveStatusByte_bit1_iff s.fdc.driveReady 0x00).mpr rfl⟩

/-- Settles O28: an opcode outside the table has no action, at its command byte and at any parameter. -/
theorem unknownCommandIsTolerated : Obligations.UnknownCommandIsTolerated := by
  intro addr drive opcode data s unsupported
  refine ⟨exec_fdcUnknown s drive opcode, fun latched => ?_⟩
  exact exec_fdcParamWrite_counts data s addr (paramAction_unknown data s (latched ▸ unsupported))

/-- Settles O27: Specify has no action, at its command byte and at any parameter. -/
theorem specifyOnlyCounts : Obligations.SpecifyOnlyCounts := by
  intro addr drive data s
  refine ⟨exec_fdcSpecify s drive, fun specify => ?_⟩
  exact exec_fdcParamWrite_counts data s addr (paramAction_specify data s specify)

/-- Settles O29: the command byte leaves the index at 0, and the parameter at index 0 is stored untested. -/
theorem writeSpecialStoresTheRegisterId : Obligations.WriteSpecialStoresTheRegisterId := by
  intro addr drive id s
  refine ⟨exec_fdcWriteSpecial s drive, ?_⟩
  rw [execAll_cons (exec_fdcWriteSpecial s drive), execAll_cons (exec_fdcParamWrite id _ addr),
    paramWrite_writeSpecial_first id _ rfl rfl]
  rfl

end

section
/-! SUPPORT. The FDC tick as one next state for each of its branches (R180 to R185): the deadline not due, the completion and
the transfer; and ticks after the deadline is cleared (R184). -/

namespace Sys2Proof.Machine

variable {s : State} {c : Cycle}

/-- The deadline is not due exactly when none is armed or the count is before it (R185). -/
theorem deadlineDue_eq_false_iff (f : Fdc) :
    deadlineDue c f = false ↔ f.deadline = 0#64 ∨ c.toNat < f.deadline.toNat := by
  rw [← Bool.not_eq_true, deadlineDue_iff, not_and_or, not_not, not_le]

/-! ## The state after a tick -/

theorem exec_fdcTick : exec (.fdcTick c) s = .next ((tick c s).returning .nothing) := rfl

/-- Without a due deadline a tick is its first step (R185). -/
theorem tick_not_due (notDue : deadlineDue c s.fdc = false) : tick c s = tickCountdown s := by
  rw [tick, tickDeadline, tickCountdown_deadlineDue, notDue]; rfl

/-- A due tick with the cursor inside the window runs the countdown and transfers (R181, R183). -/
theorem tick_transfer (due : deadlineDue c s.fdc = true) (inside : s.fdc.byteIndex < s.fdc.endIndex) :
    tick c s = tickTransfer (tickCountdown s) := by
  have inside' : ¬ (tickCountdown s).fdc.endIndex ≤ (tickCountdown s).fdc.byteIndex := by
    rw [tickCountdown_eq]; exact not_le.mpr inside
  rw [tick, tickDeadline, tickCountdown_deadlineDue, if_pos due, if_neg inside']

/-- A due tick clears the deadline, whether it completes or transfers (R182, R183). -/
theorem tick_deadline_of_due (due : deadlineDue c s.fdc = true) : (tick c s).fdc.deadline = 0#64 := by
  have due' : deadlineDue c (tickCountdown s).fdc = true := by rwa [tickCountdown_deadlineDue]
  rw [tick]
  obtain ⟨notDue, -⟩ | ⟨-, -, completes⟩ | ⟨-, -, transfers⟩ := tickDeadline_cases (tickCountdown s) c
  · rw [due'] at notDue; cases notDue
  · rw [completes]; rfl
  · rw [transfers]; rfl

/-- A tick calls the NMI exactly where the deadline is due (R184). -/
theorem tick_emitted : (tick c s).emitted = if deadlineDue c s.fdc then s.emitted ++ [.nmi] else s.emitted := by
  obtain ⟨f, n, e⟩ := tick_spec s c
  rw [e]

/-! ## Ticks without an armed deadline -/

/-- With no deadline armed a tick arms none and calls nothing. -/
theorem exec_fdcTick_disarmed (disarmed : s.fdc.deadline = 0#64) :
    ∃ t, exec (.fdcTick c) s = .next t ∧ t.fdc.deadline = 0#64 ∧ t.emitted = s.emitted := by
  refine ⟨_, exec_fdcTick, ?_⟩
  rw [tick_not_due ((deadlineDue_eq_false_iff _).mpr (.inl disarmed)), tickCountdown_eq]
  exact ⟨disarmed, rfl⟩

/-- With no deadline armed no number of ticks calls the NMI (R184). -/
theorem execAll_fdcTick_disarmed (ticks : List Cycle) (disarmed : s.fdc.deadline = 0#64) :
    ∃ u, execAll (ticks.map .fdcTick) s = .next u ∧ u.emitted = s.emitted := by
  induction ticks generalizing s with
  | nil => exact ⟨s, rfl, rfl⟩
  | cons c rest ih =>
    obtain ⟨t, ticked, disarmed', silent⟩ := exec_fdcTick_disarmed (c := c) disarmed
    obtain ⟨u, run, silent'⟩ := ih disarmed'
    exact ⟨u, (execAll_cons ticked).trans run, silent'.trans silent⟩

end Sys2Proof.Machine

open Sys2Proof Sys2Proof.Machine

/-- Settles O33: step 2 of the tick does nothing, and step 1 is the countdown. -/
theorem tickWithoutDueDeadline : Obligations.TickWithoutDueDeadline := by
  intro c s early
  rw [exec_fdcTick, tick_not_due ((deadlineDue_eq_false_iff _).mpr early), tickCountdown_eq]
  rfl

/-- Settles O34: the completion's next state, with the complete status written out. -/
theorem tickCompletesTheTransfer : Obligations.TickCompletesTheTransfer :=
  fun _ _ armed reached done => exec_fdcTick_complete _ armed reached done

/-- Settles O35: the invariant keeps the window inside the image, so the byte at the cursor exists. -/
theorem tickLatchesTheNextByte : Obligations.TickLatchesTheNextByte := by
  intro c s inv armed reached inside
  have inImage : s.fdc.byteIndex < s.image.length := inside.trans_le inv.cursorInImage
  have inImage' : (tickCountdown s).fdc.byteIndex < (tickCountdown s).image.length := by
    rw [tickCountdown_eq]; exact inImage
  have due : deadlineDue c s.fdc = true := (deadlineDue_iff _ _).mpr ⟨armed, reached⟩
  refine ⟨s.image[s.fdc.byteIndex], List.getElem?_eq_getElem inImage, ?_⟩
  rw [exec_fdcTick, tick_transfer due inside, tickTransfer_inside _ inImage']
  simp only [tickCountdown_eq]
  rfl

/-- Settles O36: the due tick calls one NMI and leaves no deadline armed, and without one every later tick is silent. -/
theorem deadlineFiresOnce : Obligations.DeadlineFiresOnce := by
  intro c s armed reached
  have due : deadlineDue c s.fdc = true := (deadlineDue_iff _ _).mpr ⟨armed, reached⟩
  have cleared : (tick c s).fdc.deadline = 0#64 := tick_deadline_of_due due
  refine ⟨_, exec_fdcTick, ?_, cleared, fun later => execAll_fdcTick_disarmed later cleared⟩
  exact tick_emitted.trans (if_pos due)

end

section
/-! SUPPORT. The control register (R206, R207): the latch that no port reads. Each operation of Ports A, B and C commutes with
putting another byte into it. -/

namespace Sys2Proof.Machine

/-! ## The control rows -/

theorem exec_piaCtrlWrite (addr : Addr) (data : Byte) (s : State) :
    exec (.piaCtrlWrite addr data) s = .next (controlWrite data s) := rfl

theorem exec_piaCtrlRead (addr : Addr) (s : State) : exec (.piaCtrlRead addr) s = .next (controlRead s) := rfl

/-- A control read returns what the control write before it stored (R206, R207). -/
theorem controlRead_controlWrite (data : Byte) (s : State) :
    controlRead (controlWrite data s) = (s.withPia { s.pia with control := data }).returning (.byte data) := rfl

/-! ## Operations that ignore the control byte -/

/-- The state with another control byte. -/
def State.withControl (s : State) (data : Byte) : State := s.withPia { s.pia with control := data }

/-- An operation that keeps the control byte, and does and returns the same with any other one. -/
def IgnoresControl (op : State → State) : Prop :=
  ∀ (data : Byte) (s : State),
    (op s).pia.control = s.pia.control ∧ op (s.withControl data) = (op s).withControl data

/-- The scan reads the keymap and the pressed keys, so no PIA latch (R226). -/
theorem scanColumn_withPia (s : State) (p : Pia) (col : Byte) : scanColumn (s.withPia p) col = scanColumn s col := rfl

/-- Port C's overlays read its own latch, the count and the Repeat key (R204). -/
theorem portCValue_withControl (s : State) (data : Byte) : portCValue (s.withControl data) = portCValue s := rfl

theorem portARead_ignoresControl : IgnoresControl portARead := fun _ _ => ⟨rfl, rfl⟩

theorem portAWrite_ignoresControl (v : Byte) : IgnoresControl (portAWrite v) := fun _ _ => ⟨rfl, rfl⟩

theorem portBRead_ignoresControl : IgnoresControl portBRead := by
  refine fun data s => ⟨rfl, ?_⟩
  rw [portBRead, State.withControl, scanColumn_withPia]
  rfl

theorem portBWrite_ignoresControl (v : Byte) : IgnoresControl (portBWrite v) := fun _ _ => ⟨rfl, rfl⟩

theorem portCRead_ignoresControl : IgnoresControl portCRead := by
  refine fun data s => ⟨rfl, ?_⟩
  rw [portCRead, portCValue_withControl]
  rfl

theorem portCWrite_ignoresControl (v : Byte) : IgnoresControl (portCWrite v) := fun _ _ => ⟨rfl, rfl⟩

/-- Each row of Ports A, B and C is an operation that ignores the control byte. -/
theorem exec_port_ignoresControl {addr : Addr} {v : Byte} {i : Instr}
    (port : i ∈ [.piaARead addr, .piaAWrite addr v, .piaBRead addr, .piaBWrite addr v, .piaCRead addr, .piaCWrite addr v]) :
    ∃ op, IgnoresControl op ∧ ∀ s, exec i s = .next (op s) := by
  simp only [List.mem_cons, List.not_mem_nil, or_false] at port
  obtain rfl | rfl | rfl | rfl | rfl | rfl := port
  · exact ⟨_, portARead_ignoresControl, fun _ => rfl⟩
  · exact ⟨_, portAWrite_ignoresControl v, fun _ => rfl⟩
  · exact ⟨_, portBRead_ignoresControl, fun _ => rfl⟩
  · exact ⟨_, portBWrite_ignoresControl v, fun _ => rfl⟩
  · exact ⟨_, portCRead_ignoresControl, fun _ => rfl⟩
  · exact ⟨_, portCWrite_ignoresControl v, fun _ => rfl⟩

end Sys2Proof.Machine

open Sys2Proof Sys2Proof.Machine

/-- Settles O40: the control rows store and return the latch, and each port row's operation commutes with changing it. -/
theorem controlIsStoredAndReadBack : Obligations.ControlIsStoredAndReadBack := by
  intro addr data s
  refine ⟨exec_piaCtrlWrite addr data s, exec_piaCtrlRead addr s, ?_, fun v i port => ?_⟩
  · rw [execAll_cons (exec_piaCtrlWrite addr data s), execAll_cons (exec_piaCtrlRead addr _), controlRead_controlWrite]
    rfl
  · obtain ⟨op, ignores, runs⟩ := exec_port_ignoresControl port
    obtain ⟨keeps, commutes⟩ := ignores data s
    exact ⟨op s, runs s, keeps, (runs _).trans (congrArg _ commutes)⟩

end

section
/-! SUPPORT. No operation faults, stalls or refuses (R300). -/

open Sys2Proof Sys2Proof.Machine

/-- Settles O6: `exec_completes`, which goes through the instructions and names the next state that each one answers. -/
theorem everyOperationCompletes : Obligations.EveryOperationCompletes := by
  intro i s
  exact exec_completes s i

end

section
/-! SUPPORT. The decoder's round trip (R80 to R90): the command byte, the events, and what the decoder can answer. -/

namespace Sys2Proof

open Sys2Proof.Machine

variable {p : Config.Params}

/-! ## What the decoder answers -/

theorem eventRow_wellFormed {number : Byte} {operand : Cycle} {i : Instr} (h : eventRow number operand = .ok i) :
    i.WellFormed p = true := by
  unfold eventRow at h
  split at h
  case h_1 => cases h; rfl
  case h_2 => split at h <;> cases h; rfl
  case h_5 => cases h; rfl
  case h_12 => cases h
  all_goals exact plainEvent_wellFormed rfl h

/-- A word that decodes is a bus triple, a command byte, a key code or a numbered event. -/
theorem decode_cases {w : OpWord} {i : Instr} (h : decode p w = .ok i) :
    (∃ dir addr data, i = busRow p dir addr data) ∨ (∃ data, i = commandRow data) ∨ (∃ code, i = .keyEvent code) ∨
      ∃ number operand, eventRow number operand = .ok i := by
  unfold decode at h
  split at h
  case h_1 lo hi data dir =>
    split at h
    case h_1 d _ => cases h; exact .inl ⟨d, _, data, rfl⟩
    case h_2 => cases h
  case h_3 data => cases h; exact .inr (.inl ⟨data, rfl⟩)
  case h_5 code => cases h; exact .inr (.inr (.inl ⟨code, rfl⟩))
  case h_6 number operand => exact .inr (.inr (.inr ⟨number, operand, h⟩))
  all_goals cases h

theorem decode_wellFormed {w : OpWord} {i : Instr} (h : decode p w = .ok i) : i.WellFormed p = true := by
  obtain ⟨dir, addr, data, rfl⟩ | ⟨data, rfl⟩ | ⟨code, rfl⟩ | ⟨number, operand, event⟩ := decode_cases h
  · exact busRow_wellFormed p dir addr data
  · exact commandRow_wellFormed p data
  · rfl
  · exact eventRow_wellFormed event

/-! ## Words and back -/

/-- A read row's word decodes to the row that its target selects (R82, R83). -/
theorem decode_readWord (addr : Addr) (data : Byte) : decode p (busWord .read addr data) = .ok (readRow p addr) :=
  decode_busWord p .read addr data

theorem decode_writeWord (addr : Addr) (data : Byte) :
    decode p (busWord .write addr data) = .ok (writeRow p addr data) :=
  decode_busWord p .write addr data

/-- A scan's operand is its column (log 5). -/
theorem eventRow_kbdScan (col : Byte) : eventRow 1 (col.setWidth 64) = .ok (.kbdScan col) := by
  have small : (col.setWidth 64).toNat < 256 := by simp; omega
  have low : (col.setWidth 64).extractLsb' 0 8 = col := by
    apply BitVec.eq_of_toNat_eq; simp; omega
  change (if (col.setWidth 64).toNat < 256 then _ else _) = _
  rw [if_pos small, low]

/-- Decoding a well-formed instruction's word gives it back. A command row and an event keep their operand; the bus rows,
left to the last case, are the row of their address's target, which well-formedness names (R81). -/
theorem decode_encode {i : Instr} (wf : i.WellFormed p = true) : decode p (encode i) = .ok i := by
  cases i with
  | fetch addr => exact decode_busWord p .fetch addr 0
  | fdcUnknown drive opcode =>
    have unsupported : ¬ SupportedOpcode opcode := by simpa only [Instr.WellFormed, decide_eq_true_eq] using wf
    exact congrArg Except.ok (commandRow_append drive opcode unsupported)
  | kbdScan col => exact eventRow_kbdScan col
  | fdcReadData drive | fdcSeek drive | fdcReadDriveStatus drive | fdcSpecify drive | fdcWriteSpecial drive =>
    simp only [encode, decode, commandRow, commandByte, commandOpcode_append, commandDrive_append]
    rfl
  | fdcTick | keyEvent | kbdBreak | kbdRepeat | vduFieldsync | vduSnapshot | schedIteration | schedDrain
    | schedBreakCheck | schedTick | schedExecute => rfl
  | _ =>
    simp only [Instr.WellFormed, decide_eq_true_eq] at wf
    simp only [encode, decode_readWord, decode_writeWord, readRow, writeRow, wf]

end Sys2Proof

open Sys2Proof Sys2Proof.Machine

/-- Settles O7: a bus row's word selects the target that well-formedness names, and a command byte and an event keep
their operands. -/
theorem decodeInvertsEncode : Obligations.DecodeInvertsEncode :=
  fun _ _ wf => decode_encode wf

/-- Settles O8: whichever channel carries the word, its row is the one the address or the opcode selects. -/
theorem decodedIsWellFormed : Obligations.DecodedIsWellFormed :=
  fun _ _ _ h => decode_wellFormed h

end

section
/-! SUPPORT. The default placement (R66, R105, R106): the regions as ranges, and the offset of each address of the FDC and
PIA windows. -/

namespace Sys2Proof

open Sys2Proof.Machine Sys2Proof.Config

variable (a : Addr)

/-! ## Regions -/

theorem region_default :
    region defaultParams a =
      if 0x0A00 ≤ a.toNat ∧ a.toNat < 0x0B00 then .fdc
      else if a.toNat ≤ 0x9FFF then .ram
      else if 0xB000 ≤ a.toNat ∧ a.toNat < 0xB400 then .pia
      else if 0xB400 ≤ a.toNat ∧ a.toNat ≤ 0xBFFF then .unmapped
      else .rom := by
  simp only [region, ramLo, ramHi, Nat.zero_le, true_and, defaultParams, Nat.reduceAdd]
  rfl

theorem region_default_fdc_iff : region defaultParams a = .fdc ↔ 0x0A00 ≤ a.toNat ∧ a.toNat ≤ 0x0AFF := by
  rw [region_default]; split_ifs <;> simp <;> omega

theorem region_default_ram_iff :
    region defaultParams a = .ram ↔ a.toNat ≤ 0x09FF ∨ (0x0B00 ≤ a.toNat ∧ a.toNat ≤ 0x9FFF) := by
  rw [region_default]; split_ifs <;> simp <;> omega

theorem region_default_pia_iff : region defaultParams a = .pia ↔ 0xB000 ≤ a.toNat ∧ a.toNat ≤ 0xB3FF := by
  rw [region_default]; split_ifs <;> simp <;> omega

theorem region_default_unmapped_iff :
    region defaultParams a = .unmapped ↔ 0xB400 ≤ a.toNat ∧ a.toNat ≤ 0xBFFF := by
  rw [region_default]; split_ifs <;> simp <;> omega

theorem region_default_rom_iff :
    region defaultParams a = .rom ↔ (0xA000 ≤ a.toNat ∧ a.toNat ≤ 0xAFFF) ∨ 0xC000 ≤ a.toNat := by
  rw [region_default]; split_ifs <;> simp <;> omega

/-! ## Ports -/

variable {a} {n k : Nat}

/-- The FDC's ports repeat every eight addresses of its window (R105). -/
theorem fdcOffset_default (hk : k < 8) (ha : a.toNat = 0x0A00 + 8 * n + k) : fdcOffset defaultParams a = k := by
  have inside : 0x0A00 + 8 * n + k - 0x0A00 = 8 * n + k := by omega
  simp only [fdcOffset, defaultParams, ha, inside]
  exact (Nat.and_two_pow_sub_one_eq_mod (8 * n + k) 3).trans (by omega)

/-- The PIA's registers repeat every four addresses of its window (R106). -/
theorem piaOffset_default (hk : k < 4) (ha : a.toNat = 0xB000 + 4 * n + k) : piaOffset defaultParams a = k := by
  have inside : 0xB000 + 4 * n + k - 0xB000 = 4 * n + k := by omega
  simp only [piaOffset, defaultParams, ha, inside]
  exact (Nat.and_two_pow_sub_one_eq_mod (4 * n + k) 2).trans (by omega)

/-- An address of the FDC window stands for the port of its offset modulo 8, or for a hole (R82, R90). -/
theorem target_default_fdc (hn : n < 32) (hk : k < 8) (ha : a.toNat = 0x0A00 + 8 * n + k) :
    target defaultParams a = (fdcPortAt k).elim .fdcHole .fdc := by
  have window : region defaultParams a = .fdc := (region_default_fdc_iff a).mpr ⟨by omega, by omega⟩
  have offset := fdcOffset_default hk ha
  cases port : fdcPortAt k with
  | none => exact target_fdcHole window (offset ▸ port)
  | some q => exact target_fdc window (offset ▸ port)

/-- An address of the PIA window stands for the register of its offset modulo 4 (R83). -/
theorem target_default_pia (hn : n < 256) (hk : k < 4) (ha : a.toNat = 0xB000 + 4 * n + k) :
    target defaultParams a = (piaPortAt k).elim .unmapped .pia := by
  have window : region defaultParams a = .pia := (region_default_pia_iff a).mpr ⟨by omega, by omega⟩
  rw [target, window, ← piaOffset_default hk ha]
  cases piaPortAt (piaOffset defaultParams a) <;> rfl

end Sys2Proof

open Sys2Proof Sys2Proof.Machine

/-- Settles O12: the windows are the ranges of `region_default`, and each address's target selects its two rows. -/
theorem defaultAddressMap : Obligations.DefaultAddressMap := by
  intro a d
  refine ⟨region_default_fdc_iff a, region_default_ram_iff a, region_default_pia_iff a, region_default_unmapped_iff a,
    region_default_rom_iff a, fun h => ?_, fun h => ?_, fun h => ?_, fun n k hn hk ha => ?_, fun n k hn hk ha => ?_⟩
  · simp [decode_readWord, decode_writeWord, readRow, writeRow, target_ram h]
  · simp [decode_readWord, decode_writeWord, readRow, writeRow, target_rom h]
  · simp [decode_readWord, decode_writeWord, readRow, writeRow, target_unmapped h]
  · rw [decode_readWord, decode_writeWord, readRow, writeRow, target_default_fdc hn hk ha]
    interval_cases k <;> rfl
  · rw [decode_readWord, decode_writeWord, readRow, writeRow, target_default_pia hn hk ha]
    interval_cases k <;> rfl

/-- Settles O10: each word is a closed term, so the decoder computes its row. -/
theorem writtenWordsDecode : Obligations.WrittenWordsDecode := by
  unfold Obligations.WrittenWordsDecode
  decide

end

section
/-! SUPPORT. The invariant of the machine (R23, R25 to R28, R31, R37, R40): it holds at power-on, every decoded operation
keeps it, and so does every step. -/

namespace Sys2Proof.Machine

open Sys2Proof.Config

/-! ## Power-on -/

/-- A power-on state whose arrays are canonical meets the invariant (R332). -/
theorem inv_powerOn {cfg : Params} {ram rom : Memory} {image : List Byte} (ramWf : ram.wf) (romWf : rom.wf)
    (inside : ∀ c ∈ ram, c.1 ≤ ramHi) : (State.powerOn cfg ram rom image).Inv := by
  obtain ⟨status, result, ordered, inImage, countdown, masked⟩ := FdcLegal.reset cfg image.length
  exact ⟨ramWf, romWf, inside, status, result, ordered, inImage, countdown, masked, Nat.zero_le _, Nat.zero_lt_succ 99,
    Nat.le_refl _⟩

/-! ## Every operation -/

variable {s : State}

theorem inv_latchCommand (h : s.Inv) (drive : BitVec 2) (opcode : BitVec 6) : (latchCommand drive opcode s).Inv :=
  inv_withFdc h (h.fdcLegal.of_eq rfl rfl rfl rfl rfl rfl)

theorem inv_readDriveStatusCommand (h : s.Inv) : (readDriveStatusCommand s).Inv := by
  obtain ⟨status, -, ordered, inImage, countdown, masked⟩ := h.fdcLegal
  exact inv_withFdc h ⟨status, driveStatusByte_legal _ _, ordered, inImage, countdown, masked⟩

/-- An iteration is made of operations that keep the invariant (R270). -/
theorem inv_iteration (h : s.Inv) : (iteration s).Inv :=
  inv_paceStep (inv_executeInstr (inv_breakCheck (inv_tick (inv_drainEvents h) _)))

/-- A well-formed operation keeps the invariant. Only a RAM write needs it to be well formed: its address is then one of
RAM. The rows that store nothing the invariant reads are left to the returned value and the PIA. -/
theorem exec_next_inv (h : s.Inv) {i : Instr} (wf : i.WellFormed s.cfg = true) : ∃ t, exec i s = .next t ∧ t.Inv := by
  cases i with
  | ramWrite addr data =>
    have target : target s.cfg addr = .ram := by simpa only [Instr.WellFormed, decide_eq_true_eq] using wf
    exact ⟨_, rfl, inv_ramStore h (target_ram_inside target) data⟩
  | fdcCommandWrite _ data => exact ⟨_, rfl, inv_commandWrite h data⟩
  | fdcParamWrite _ data => exact ⟨_, rfl, inv_paramWrite h data⟩
  | fdcResetRead _ | fdcUnusedRead _ => exact ⟨_, rfl, inv_returnDraw h⟩
  | fdcResetWrite _ data => exact ⟨_, rfl, inv_resetPortWrite h data⟩
  | fdcDataRead _ => exact ⟨_, rfl, inv_dataRead h⟩
  | piaAWrite _ _ | piaBRead _ | piaBWrite _ _ | piaCRead _ | piaCWrite _ _ | piaCtrlWrite _ _ =>
    exact ⟨_, rfl, inv_returning (inv_withPia h _) _⟩
  | fetch addr => exact ⟨_, rfl, inv_busRead h addr⟩
  | fdcReadData drive | fdcSeek drive | fdcSpecify drive | fdcWriteSpecial drive | fdcUnknown drive _ =>
    exact ⟨_, rfl, inv_returning (inv_latchCommand h drive _) _⟩
  | fdcReadDriveStatus drive =>
    exact ⟨_, rfl, inv_returning (inv_readDriveStatusCommand (inv_latchCommand h drive _)) _⟩
  | fdcTick c => exact ⟨_, rfl, inv_returning (inv_tick h c) _⟩
  | keyEvent code => exact ⟨_, rfl, inv_returning (inv_sendEvent h code) _⟩
  | schedIteration => exact ⟨_, rfl, inv_iteration h⟩
  | schedDrain => exact ⟨_, rfl, inv_returning (inv_drainEvents h) _⟩
  | schedBreakCheck => exact ⟨_, rfl, inv_returning (inv_breakCheck h) _⟩
  | schedTick => exact ⟨_, rfl, inv_returning (inv_tick h _) _⟩
  | schedExecute => exact ⟨_, rfl, inv_executeInstr h⟩
  | _ => exact ⟨_, rfl, inv_returning h _⟩

theorem exec_inv (h : s.Inv) {i : Instr} (wf : i.WellFormed s.cfg = true) {t : State} (run : exec i s = .next t) :
    t.Inv := by
  obtain ⟨u, run', inv⟩ := exec_next_inv h wf
  obtain rfl : u = t := by simpa [run'] using run
  exact inv

/-! ## A step -/

theorem inv_taking (h : s.Inv) (l : Line) (rest : List Line) : (s.taking l rest).Inv :=
  inv_of_fdcLegal h rfl rfl rfl rfl rfl rfl (Nat.le_refl _) h.fdcLegal

theorem step_inv (h : s.Inv) {t : State} (run : step s = .next t) : t.Inv := by
  obtain ⟨-, run⟩ | ⟨l, rest, i, -, word, run⟩ := step_next_cases run
  · exact exec_inv h rfl run
  · exact exec_inv (inv_taking h l rest) (decode_wellFormed word) run

end Sys2Proof.Machine

open Sys2Proof Sys2Proof.Machine

/-- Settles O3: a step runs an iteration or a decoded instruction, which is well formed, and each of these keeps the
invariant. -/
theorem stepKeepsInvariant : Obligations.StepKeepsInvariant :=
  fun _ _ h run => step_inv h run

/-- Settles O2: the reset record is legal, and the empty arrays of `State.reset` are canonical. -/
theorem powerOnMeetsInvariant : Obligations.PowerOnMeetsInvariant :=
  ⟨inv_powerOn Memory.wf_nil Memory.wf_nil (by simp), fun _ _ _ _ => inv_powerOn⟩

/-- Settles O1: the power-on record written out; a key of the power-on keyboard is an entry of the constant vector. -/
theorem powerOnValues : Obligations.PowerOnValues := by
  refine ⟨rfl, fun cfg ram rom image k => ⟨rfl, rfl, ?_, rfl, rfl, rfl, rfl, rfl, rfl⟩⟩
  exact Vector.getElem_replicate k.isLt

/-- Settles O5: `step` by the form of the schedule and the decoder's answer; the count a line is taken at is
`laterCount`'s. -/
theorem stepRunsThePendingLine : Obligations.StepRunsThePendingLine := by
  refine ⟨fun s l rest i pending word => ?_, fun s l rest e pending word => ?_, fun s idle => ?_⟩
  · simp only [step, pending, word]
    rfl
  · simp only [step, pending, word]
  · simp only [step, idle]

end

section
/-! SUPPORT. The memory bus rows: a fetch as the read of its address (R111), and a RAM write as one byte of a canonical array
(R104). -/

namespace Sys2Proof.Machine

variable {s : State} {addr : Addr}

theorem exec_fetch : exec (.fetch addr) s = .next (busRead addr s) := rfl

theorem busRead_fdcData (h : target s.cfg addr = .fdc .data) : busRead addr s = dataRead s := by
  rw [busRead, h]; rfl

theorem busRead_portB (h : target s.cfg addr = .pia .portB) : busRead addr s = portBRead s := by
  rw [busRead, h]; rfl

theorem busRead_ram (h : target s.cfg addr = .ram) : busRead addr s = ramLoad addr s := by
  rw [busRead, h]

theorem exec_ramWrite (data : Byte) : exec (.ramWrite addr data) s = .next (ramStore addr data s) := rfl

theorem exec_ramRead : exec (.ramRead addr) s = .next (ramLoad addr s) := rfl

end Sys2Proof.Machine

open Sys2Proof Sys2Proof.Machine

/-- Settles O13: both are the bus read, whose operation the target selects. -/
theorem fetchIsRead : Obligations.FetchIsRead := by
  intro addr data s
  exact ⟨(exec_readRow s addr).symm, fun h => congrArg Host.Outcome.next (busRead_fdcData h),
    fun h => congrArg Host.Outcome.next (busRead_portB h)⟩

/-- Settles O14: the invariant makes RAM canonical, so the written byte is read back and every other one is left. -/
theorem ramWriteStoresOneByte : Obligations.RamWriteStoresOneByte := by
  intro addr data s inv
  have stored : Memory.read (s.ram.write addr.toNat data) addr.toNat = data :=
    Memory.read_write_same inv.ramWf addr.toNat data
  have loaded : ramLoad addr { s with ram := s.ram.write addr.toNat data, ret := .nothing } =
      { s with ram := s.ram.write addr.toNat data, ret := .byte data } := by
    rw [ramLoad, stored]; rfl
  refine ⟨s.ram.write addr.toNat data, exec_ramWrite data, stored, fun b other => Memory.read_write_other inv.ramWf data other,
    Memory.wf_write inv.ramWf _ _, exec_ramRead.trans (congrArg _ loaded), fun inRam => ?_⟩
  exact congrArg Host.Outcome.next (Eq.trans (busRead_ram (by exact inRam)) loaded)

/-- Settles O16: each of the four rows is `discardWrite`. -/
theorem discardedWrites : Obligations.DiscardedWrites :=
  fun _ _ _ => ⟨rfl, rfl, rfl, rfl⟩

end

section
/-! SUPPORT. What each operation can change, said once for all of them: a port row has the frame of a bus access, and the
other rows are the unit's own operation. From it who writes RAM (R23), the cycle count (R25) and the keyboard (R38), and who
calls the NMI (R304). -/

namespace Sys2Proof

/-- The rows that neither write RAM nor belong to the key channel, the FDC tick or the scheduler: the other bus rows, the
command bytes and the queries. -/
def Instr.isPortRow : Instr → Bool
  | .ramWrite _ _ | .fdcTick _ | .keyEvent _ | .schedIteration | .schedDrain | .schedBreakCheck | .schedTick
  | .schedExecute => false
  | _ => true

end Sys2Proof

namespace Sys2Proof.Machine

open Sys2Proof.Config

/-- What an operation does to the state: within the frame of a bus port, or by the one operation of its unit. -/
inductive Effect (s : State) : Instr → State → Prop
  | port {i : Instr} {t : State} (row : i.isPortRow = true) (frame : PortFrame s t) : Effect s i t
  | ramWrite (addr : Addr) (data : Byte) : Effect s (.ramWrite addr data) (ramStore addr data s)
  | keyEvent (code : Int) : Effect s (.keyEvent code) ((sendEvent code s).returning .nothing)
  | fdcTick (c : Cycle) : Effect s (.fdcTick c) ((tick c s).returning .nothing)
  | tick : Effect s .schedTick ((tick s.now s).returning .nothing)
  | drain : Effect s .schedDrain ((drainEvents s).returning .nothing)
  | breakCheck : Effect s .schedBreakCheck ((breakCheck s).returning .nothing)
  | execute : Effect s .schedExecute (executeInstr s)
  | iteration : Effect s .schedIteration (iteration s)

/-- A port row's next state, within the frame of its operation. -/
theorem exec_port {i : Instr} (row : i.isPortRow = true) (s : State) : ∃ t, exec i s = .next t ∧ PortFrame s t := by
  cases i with
  | ramWrite | fdcTick | keyEvent | schedIteration | schedDrain | schedBreakCheck | schedTick | schedExecute => cases row
  | fdcCommandWrite _ data => exact ⟨_, rfl, commandWrite_frame data s⟩
  | fdcParamWrite _ data => exact ⟨_, rfl, paramWrite_frame data s⟩
  | fdcResetWrite _ data => exact ⟨_, rfl, resetPortWrite_frame data s⟩
  | fdcDataRead _ => exact ⟨_, rfl, dataRead_frame s⟩
  | fetch addr => exact ⟨_, rfl, busRead_frame addr s⟩
  | fdcResetRead _ | fdcUnusedRead _ => exact ⟨_, rfl, returnDraw_frame s⟩
  | piaAWrite _ _ | piaBRead _ | piaBWrite _ _ | piaCRead _ | piaCWrite _ _ | piaCtrlWrite _ _ =>
    exact ⟨_, rfl, (withPia_frame s _).trans (returning_frame _ _)⟩
  | fdcReadData _ | fdcSeek _ | fdcSpecify _ | fdcWriteSpecial _ | fdcUnknown _ _ =>
    exact ⟨_, rfl, (withFdc_frame s _).trans (returning_frame _ _)⟩
  | fdcReadDriveStatus _ => exact ⟨_, rfl, ((withFdc_frame s _).trans (withFdc_frame _ _)).trans (returning_frame _ _)⟩
  | _ => exact ⟨_, rfl, returning_frame s _⟩

theorem exec_next_effect (i : Instr) (s : State) : ∃ t, exec i s = .next t ∧ Effect s i t := by
  by_cases row : i.isPortRow = true
  · obtain ⟨t, run, frame⟩ := exec_port row s
    exact ⟨t, run, .port row frame⟩
  · cases i with
    | ramWrite addr data => exact ⟨_, rfl, .ramWrite addr data⟩
    | keyEvent code => exact ⟨_, rfl, .keyEvent code⟩
    | fdcTick c => exact ⟨_, rfl, .fdcTick c⟩
    | schedTick => exact ⟨_, rfl, .tick⟩
    | schedDrain => exact ⟨_, rfl, .drain⟩
    | schedBreakCheck => exact ⟨_, rfl, .breakCheck⟩
    | schedExecute => exact ⟨_, rfl, .execute⟩
    | schedIteration => exact ⟨_, rfl, .iteration⟩
    | _ => exact absurd rfl row

theorem exec_effect {i : Instr} {s t : State} (run : exec i s = .next t) : Effect s i t := by
  obtain ⟨u, run', effect⟩ := exec_next_effect i s
  obtain rfl : u = t := by simpa [run'] using run
  exact effect

/-! ## The scheduler's operations -/

variable (s : State)

theorem tick_kbd (c : Cycle) : (tick c s).kbd = s.kbd := by
  obtain ⟨f, n, e⟩ := tick_spec s c
  rw [e]

theorem tick_ram (c : Cycle) : (tick c s).ram = s.ram := by
  obtain ⟨f, n, e⟩ := tick_spec s c
  rw [e]

theorem tick_now (c : Cycle) : (tick c s).now = s.now := by
  obtain ⟨f, n, e⟩ := tick_spec s c
  rw [e]

theorem tick_countFloor (c : Cycle) : (tick c s).countFloor = s.countFloor := by
  obtain ⟨f, n, e⟩ := tick_spec s c
  rw [e]

theorem tick_sched (c : Cycle) : (tick c s).sched = s.sched := by
  obtain ⟨f, n, e⟩ := tick_spec s c
  rw [e]

/-- A tick calls no CPU reset. -/
theorem tick_emits_cpuReset (c : Cycle) : (tick c s).emits .cpuReset = s.emits .cpuReset := by
  rw [State.emits, tick_emitted]
  split <;> simp [State.emits]

theorem breakCheck_kbd : (breakCheck s).kbd = s.kbd := by
  rw [breakCheck_spec]; split <;> rfl

theorem breakCheck_ram : (breakCheck s).ram = s.ram := by
  rw [breakCheck_spec]; split <;> rfl

theorem breakCheck_now : (breakCheck s).now = s.now := by
  rw [breakCheck_spec]; split <;> rfl

/-- A Break check makes no call and leaves the count's floor, or calls one CPU reset (R272). -/
theorem breakCheck_calls :
    ((breakCheck s).emitted = s.emitted ∧ (breakCheck s).countFloor = s.countFloor) ∨
      (breakCheck s).emitted = s.emitted ++ [.cpuReset] := by
  rw [breakCheck_spec]
  split
  · exact .inr rfl
  · exact .inl ⟨rfl, rfl⟩

theorem sendEvent_eq (code : Int) :
    ∃ es, sendEvent code s = { s with kbd := { s.kbd with queue := s.kbd.queue ++ es } } := by
  unfold sendEvent
  split
  · exact ⟨[], by simp⟩
  · split
    · exact ⟨[], by simp⟩
    · exact ⟨_, rfl⟩

/-- What the rest of an iteration, its instruction and the pacing, leaves of the state u before them: no call is made, the
keyboard stays, and the count ends as its own floor, not below u's (R270). -/
structure IterationTail (u t : State) : Prop where
  emitted : t.emitted = u.emitted
  kbd     : t.kbd = u.kbd
  count   : CountFrame u t

theorem iterationTail_paceStep {u t : State} (h : IterationTail u t) : IterationTail u (paceStep t) := by
  obtain ⟨pc, w, n, e, -⟩ := paceStep_spec t
  rw [e]
  exact ⟨h.emitted, h.kbd, h.count.same, h.count.rising⟩

theorem iterationTail_executeInstr (u : State) : IterationTail u (executeInstr u) :=
  ⟨(executeInstr_frame u).emitted, (executeInstr_frame u).kbd, executeInstr_countFrame u⟩

theorem iteration_tail : IterationTail (breakCheck (tick s.now (drainEvents s))) (iteration s) :=
  iterationTail_paceStep (iterationTail_executeInstr _)

/-! ## The cycle count over a step -/

/-- The floor of the count does not fall, or a CPU reset was called (R25, D34). -/
def FloorKept (s t : State) : Prop :=
  s.countFloor.toNat ≤ t.countFloor.toNat ∨ t.emits .cpuReset = s.emits .cpuReset + 1

variable {s} {t : State}

theorem FloorKept.of_eq (h : t.countFloor = s.countFloor) : FloorKept s t := .inl (h ▸ Nat.le_refl _)

/-- What comes after a Break check adds no call and does not lower the floor. -/
theorem floorKept_of_breakCheck {u : State} (calls : t.emitted = (breakCheck u).emitted)
    (rising : (breakCheck u).countFloor.toNat ≤ t.countFloor.toNat) : FloorKept u t := by
  obtain ⟨-, floor⟩ | reset := breakCheck_calls u
  · exact .inl (floor ▸ rising)
  · exact .inr (by simp [State.emits, calls, reset])

theorem exec_floorKept {i : Instr} (run : exec i s = .next t) : FloorKept s t := by
  cases exec_effect run with
  | port row frame => exact .of_eq frame.floor
  | ramWrite addr data => exact .of_eq rfl
  | keyEvent code =>
    obtain ⟨es, e⟩ := sendEvent_eq s code
    rw [e]; exact .of_eq rfl
  | fdcTick c => exact .of_eq (tick_countFloor s c)
  | tick => exact .of_eq (tick_countFloor s s.now)
  | drain => exact .of_eq rfl
  | breakCheck => exact floorKept_of_breakCheck rfl (Nat.le_refl _)
  | execute => exact .inl (executeInstr_countFrame s).rising
  | iteration =>
    have tail := iteration_tail s
    have kept := floorKept_of_breakCheck tail.emitted tail.count.rising
    rwa [FloorKept, tick_countFloor, tick_emits_cpuReset] at kept

theorem step_floorKept (run : step s = .next t) : FloorKept s t := by
  obtain ⟨-, run⟩ | ⟨l, rest, i, -, -, run⟩ := step_next_cases run
  · exact exec_floorKept run
  · exact (exec_floorKept run).imp_left (laterCount_left s.countFloor l.now).trans

/-- Outside the CPU's instructions no operation changes the cycle count, only the Break check its floor, and only a RAM
write RAM. -/
theorem exec_clock {i : Instr} (run : exec i s = .next t) (noExecute : i ≠ .schedExecute)
    (noIteration : i ≠ .schedIteration) :
    t.now = s.now ∧ (i ≠ .schedBreakCheck → t.countFloor = s.countFloor) ∧
      ((∀ addr data, i ≠ .ramWrite addr data) → t.ram = s.ram) := by
  cases exec_effect run with
  | port row frame => exact ⟨frame.now, fun _ => frame.floor, fun _ => frame.ram⟩
  | ramWrite addr data => exact ⟨rfl, fun _ => rfl, fun noWrite => absurd rfl (noWrite addr data)⟩
  | keyEvent code =>
    obtain ⟨es, e⟩ := sendEvent_eq s code
    rw [e]; exact ⟨rfl, fun _ => rfl, fun _ => rfl⟩
  | fdcTick c => exact ⟨tick_now s c, fun _ => tick_countFloor s c, fun _ => tick_ram s c⟩
  | tick => exact ⟨tick_now s _, fun _ => tick_countFloor s _, fun _ => tick_ram s _⟩
  | drain => exact ⟨rfl, fun _ => rfl, fun _ => rfl⟩
  | breakCheck => exact ⟨breakCheck_now s, fun noCheck => absurd rfl noCheck, fun _ => breakCheck_ram s⟩
  | execute => exact absurd rfl noExecute
  | iteration => exact absurd rfl noIteration

/-! ## The NMI calls and the keyboard -/

/-- A tick calls the NMI at most once, and only for an armed deadline (R184). -/
theorem tick_emits_nmi (c : Cycle) :
    (tick c s).emits .nmi = s.emits .nmi ∨ (tick c s).emits .nmi = s.emits .nmi + 1 ∧ s.fdc.deadline ≠ 0 := by
  rw [State.emits, tick_emitted]
  split
  case isTrue due => exact .inr ⟨by simp [State.emits], ((deadlineDue_iff c s.fdc).mp due).1⟩
  case isFalse => exact .inl rfl

theorem breakCheck_emits_nmi (s : State) : (breakCheck s).emits .nmi = s.emits .nmi := by
  obtain ⟨silent, -⟩ | reset := breakCheck_calls s
  · rw [State.emits, silent, State.emits]
  · simp [State.emits, reset]

theorem iteration_emits_nmi (s : State) : (iteration s).emits .nmi = (tick s.now (drainEvents s)).emits .nmi := by
  rw [State.emits, (iteration_tail s).emitted]
  exact breakCheck_emits_nmi _

theorem iteration_queue (s : State) : (iteration s).kbd.queue = [] := by
  rw [(iteration_tail s).kbd, breakCheck_kbd, tick_kbd]; rfl

end Sys2Proof.Machine

open Sys2Proof Sys2Proof.Machine

/-- Settles O17: by the effect of each operation; the floor returns to 0 in the Break check's CPU reset alone. -/
theorem writersOfRamAndOfTheCycleCount : Obligations.WritersOfRamAndOfTheCycleCount := by
  refine ⟨fun i s t run => exec_clock run, fun i s t run cpu => ?_, fun s t run => step_floorKept run⟩
  cases exec_effect run with
  | execute => exact (executeInstr_countFrame s).same
  | iteration => exact (iteration_tail s).count.same
  | port row frame => obtain rfl | rfl := cpu <;> cases row
  | _ => simp at cpu

/-- Settles O38: a port row makes no call, a Break check and a CPU instruction call no NMI, and a tick at most one. -/
theorem onlyTicksRaiseTheNmi : Obligations.OnlyTicksRaiseTheNmi := by
  intro i s t run
  cases exec_effect run with
  | port row frame => exact .inl (by rw [State.emits, frame.emitted, State.emits])
  | ramWrite addr data => exact .inl rfl
  | keyEvent code =>
    obtain ⟨es, e⟩ := sendEvent_eq s code
    rw [e]; exact .inl rfl
  | fdcTick c => exact (tick_emits_nmi c).imp_right fun ⟨called, armed⟩ => ⟨called, armed, .inl ⟨c, rfl⟩⟩
  | tick => exact (tick_emits_nmi s.now).imp_right fun ⟨called, armed⟩ => ⟨called, armed, .inr (.inl rfl)⟩
  | drain => exact .inl rfl
  | breakCheck => exact .inl (breakCheck_emits_nmi s)
  | execute => exact .inl (by rw [State.emits, (executeInstr_frame s).emitted, State.emits])
  | iteration =>
    rw [iteration_emits_nmi]
    exact (tick_emits_nmi s.now).imp_right fun ⟨called, armed⟩ => ⟨called, armed, .inr (.inr rfl)⟩

/-- Settles O49: by the effect of each operation; a port row, a tick, a Break check and a CPU instruction leave the
keyboard. -/
theorem keyboardWriters : Obligations.KeyboardWriters := by
  intro i s t run
  cases exec_effect run with
  | port row frame =>
    rw [frame.kbd]
    refine ⟨fun _ _ => rfl, fun _ => ⟨[], by simp⟩, ?_, fun _ _ _ => rfl⟩
    rintro (rfl | rfl) <;> cases row
  | ramWrite addr data => simp [ramStore]
  | keyEvent code =>
    obtain ⟨es, e⟩ := sendEvent_eq s code
    simp [e]
  | fdcTick c => simp [tick_kbd]
  | tick => simp [tick_kbd]
  | drain => simp [drainEvents]
  | breakCheck => simp [breakCheck_kbd]
  | execute => simp [(executeInstr_frame s).kbd]
  | iteration => simp [iteration_queue]

end

section
/-! SUPPORT. The FDC's command, parameter and data ports as next states (R122 to R126), and the parameters of Read Data and of
Write Special Register (R158, R159, R163). -/

namespace Sys2Proof.Machine

open Sys2Proof.Config

variable (data : Byte) (s : State)

/-! ## Command bytes -/

/-- The command byte's action can only be Read Drive Status's, the drive-status byte as the result (R151, R156). -/
theorem commandAction_eq (opcode : BitVec 6) :
    commandAction opcode s =
      s.withFdc
        { s.fdc with
          result := if opcode = opReadDriveStatus then driveStatusByte s.fdc.driveReady s.fdc.track else s.fdc.result } := by
  by_cases supported : SupportedOpcode opcode
  · obtain rfl | rfl | rfl | rfl | rfl := supported <;> rfl
  · have other : opcode ≠ opReadDriveStatus := fun h => supported (.inr (.inr (.inl h)))
    rw [commandAction, fdcOp_unknown supported, if_neg other]; rfl

/-- The drive-status byte on track 0, by the ready mark (R157). -/
theorem driveStatusByte_trackZero (ready : Bool) : driveStatusByte ready 0#8 = if ready then 0x96#8 else 0x92#8 := by
  cases ready <;> rfl

/-- The drive-status byte on any other track (R157). -/
theorem driveStatusByte_other (ready : Bool) {track : Byte} (h : track ≠ 0#8) :
    driveStatusByte ready track = if ready then 0x94#8 else 0x90#8 := by
  rw [driveStatusByte, if_neg h]
  cases ready <;> rfl

/-! ## Parameter bytes -/

/-- A parameter of Read Data other than the third, or of any other command, leaves what a transfer's start sets and draws
nothing (R152). -/
theorem paramAction_noStart (noStart : ¬ (s.fdc.command = opReadData ∧ s.fdc.paramIndex = 2)) :
    (paramAction data s).fdc.status = s.fdc.status ∧ (paramAction data s).fdc.deadline = s.fdc.deadline ∧
      (paramAction data s).fdc.byteIndex = s.fdc.byteIndex ∧ (paramAction data s).fdc.endIndex = s.fdc.endIndex ∧
      (paramAction data s).draws = s.draws := by
  by_cases supported : SupportedOpcode s.fdc.command
  · obtain h | h | h | h | h := supported
    · rw [paramAction_readData data s h]
      unfold readDataParam
      split
      case h_3 third => exact absurd ⟨h, third⟩ noStart
      all_goals exact ⟨rfl, rfl, rfl, rfl, rfl⟩
    · rw [paramAction_seek data s h]
      unfold seekParam
      split <;> exact ⟨rfl, rfl, rfl, rfl, rfl⟩
    · rw [paramAction_readDriveStatus data s h]; exact ⟨rfl, rfl, rfl, rfl, rfl⟩
    · rw [paramAction_specify data s h]; exact ⟨rfl, rfl, rfl, rfl, rfl⟩
    · rw [paramAction_writeSpecial data s h]
      unfold writeSpecialParam writeSpecial
      split
      case h_2 => split <;> exact ⟨rfl, rfl, rfl, rfl, rfl⟩
      all_goals exact ⟨rfl, rfl, rfl, rfl, rfl⟩
  · rw [paramAction_unknown data s supported]; exact ⟨rfl, rfl, rfl, rfl, rfl⟩

/-- A parameter past its command's count has no action (R160, R165). -/
theorem paramAction_extra
    (extra : (s.fdc.command = opReadData ∧ 3 ≤ s.fdc.paramIndex) ∨ (s.fdc.command = opSeek ∧ 1 ≤ s.fdc.paramIndex) ∨
      (s.fdc.command = opWriteSpecial ∧ 2 ≤ s.fdc.paramIndex) ∨ s.fdc.command = opReadDriveStatus) :
    paramAction data s = s := by
  obtain ⟨h, past⟩ | ⟨h, past⟩ | ⟨h, past⟩ | h := extra
  · exact (paramAction_readData data s h).trans (readDataParam_later data s past)
  · exact (paramAction_seek data s h).trans (seekParam_later data s (Nat.one_le_iff_ne_zero.mp past))
  · exact (paramAction_writeSpecial data s h).trans (writeSpecialParam_later data s past)
  · exact paramAction_readDriveStatus data s h

theorem startsDrive_iff (register value : Byte) :
    startsDrive register value = true ↔ register = 0x23#8 ∧ value.getLsbD 6 = true := by
  simp [startsDrive]

/-- Write Special Register's value, at index 1 (R163, R164). -/
theorem paramAction_writeSpecial_second (special : s.fdc.command = opWriteSpecial) (second : s.fdc.paramIndex = 1) :
    paramAction data s = writeSpecial data s := by
  rw [paramAction_writeSpecial data s special, writeSpecialParam, second]; rfl

/-- A parameter whose action is another FDC record counts in it (R124). -/
theorem paramWrite_stores {f : Fdc} (acted : paramAction data s = s.withFdc f) :
    paramWrite data s = { s with fdc := { f with paramIndex := f.paramIndex + 1 }, ret := .nothing } := by
  rw [paramWrite, acted]; rfl

/-- Read Data's first parameter is the track (R158). -/
theorem paramAction_readData_first (read : s.fdc.command = opReadData) (first : s.fdc.paramIndex = 0) :
    paramAction data s = s.withFdc { s.fdc with track := data } := by
  rw [paramAction_readData data s read, readDataParam, first]; rfl

/-- Read Data's second parameter is the sector (R158). -/
theorem paramAction_readData_second (read : s.fdc.command = opReadData) (second : s.fdc.paramIndex = 1) :
    paramAction data s = s.withFdc { s.fdc with sector := data } := by
  rw [paramAction_readData data s read, readDataParam, second]; rfl

/-- Read Data's third parameter starts the transfer (R159). -/
theorem paramAction_readData_third (read : s.fdc.command = opReadData) (third : s.fdc.paramIndex = 2) :
    paramAction data s = readDataStart data s := by
  rw [paramAction_readData data s read, readDataParam, third]; rfl

/-- The start of a transfer inside the domain of the cycle count (R159, R166). -/
theorem readDataStart_inside (inside : InDomain s.now) :
    let start := s.fdc.track.toNat * 2560 + s.fdc.sector.toNat * 256
    let stop := min (start + (data &&& s.cfg.countMask).toNat * 256) s.image.length
    readDataStart data s =
      { s with
        fdc := { s.fdc with
          sectorCount := data &&& s.cfg.countMask, endIndex := stop, byteIndex := min start stop
          status := s.cfg.stBusy, deadline := s.now + 400 } } :=
  armDeadline_inside (s.withFdc _) inside

theorem exec_fdcReadData (drive : BitVec 2) :
    exec (.fdcReadData drive) s = .next ((latchCommand drive opReadData s).returning .nothing) := rfl

/-! ## Data reads -/

theorem exec_fdcDataRead (addr : Addr) : exec (.fdcDataRead addr) s = .next (dataRead s) := rfl

end Sys2Proof.Machine

open Sys2Proof Sys2Proof.Machine Sys2Proof.Config

/-- Settles O18: the latch, then the command's action, which is Read Drive Status's or none. -/
theorem commandWriteEffect : Obligations.CommandWriteEffect := by
  intro addr data s
  rw [exec_fdcCommandWrite, commandWrite, commandAction_eq]
  rfl

/-- Settles O19: the parameter's action keeps the frame, and only the start of a transfer sets status, deadline and cursor. -/
theorem parameterWriteFrame : Obligations.ParameterWriteFrame := by
  intro addr data s
  obtain ⟨f, n, acted, index, command, drive, result, latch, ready⟩ := paramAction_spec data s
  have noStart := paramAction_noStart data s
  rw [acted] at noStart
  refine ⟨_, exec_fdcParamWrite data s addr, ?_⟩
  rw [paramWrite, acted]
  exact ⟨rfl, congrArg (· + 1) index, command, drive, result, latch, ready, noStart⟩

/-- Settles O20: a parameter past the count has no action, so it only counts. -/
theorem extraParametersAreIgnored : Obligations.ExtraParametersAreIgnored :=
  fun addr data s extra => exec_fdcParamWrite_counts data s addr (paramAction_extra data s extra)

/-- Settles O21: the free byte and the free deadline are the two witnesses. -/
theorem dataReadsWithAFreeValue : Obligations.DataReadsWithAFreeValue := by
  refine fun addr s => ⟨fun full => ⟨freeByte s.draws, ?_⟩, fun notFull outside => ⟨freeCycle s.draws, ?_⟩⟩
  · rw [exec_fdcDataRead, dataRead_full s ((resultFull_iff _ _).mpr full)]; rfl
  · rw [exec_fdcDataRead, dataRead_outside s ((resultFull_eq_false_iff _ _).mpr notFull) outside]; rfl

/-- Settles O23: the read arms `now + 400` without wrapping, so an earlier tick runs the countdown alone. -/
theorem earlyDataReadPostponesTheByte : Obligations.EarlyDataReadPostponesTheByte := by
  intro addr s c notFull inside early
  have read := dataRead_latch s ((resultFull_eq_false_iff _ _).mpr notFull) inside
  have deadline : (s.now + 400#64).toNat = s.now.toNat + 400 := toNat_add_byteLatency inside
  have notDue : deadlineDue c (dataRead s).fdc = false := by
    rw [deadlineDue_eq_false_iff, read]
    exact .inr (early.trans_eq deadline.symm)
  refine ⟨_, (execAll_cons (exec_fdcDataRead s addr)).trans (execAll_cons exec_fdcTick), ?_⟩
  rw [tick_not_due notDue, tickCountdown_eq, read]
  exact ⟨rfl, rfl, rfl, deadline⟩

/-- Settles O24: each row is one update; the mode chooses the reset-port write. -/
theorem statusResultResetAndUnusedPorts : Obligations.StatusResultResetAndUnusedPorts := by
  intro addr data s
  refine ⟨rfl, rfl, fun ignored => ?_, fun resets => ?_, ⟨freeByte s.draws, rfl⟩, ⟨freeByte s.draws, rfl⟩⟩
  · change Host.Outcome.next (resetPortWrite data s) = _
    rw [resetPortWrite, ignored]; rfl
  · change Host.Outcome.next (resetPortWrite data s) = _
    rw [resetPortWrite, resets]; rfl

/-- Settles O26: the drive-status byte for each value of the ready mark and the track-0 test. -/
theorem readDriveStatusResult : Obligations.ReadDriveStatusResult := by
  refine fun drive s => ⟨driveStatusByte s.fdc.driveReady s.fdc.track, exec_fdcReadDriveStatus s drive, ?_, ?_, ?_, ?_⟩
  · intro ready track; rw [ready, track]; exact driveStatusByte_trackZero false
  · intro ready track; rw [ready]; exact driveStatusByte_other false track
  · intro ready track; rw [ready, track]; exact driveStatusByte_trackZero true
  · intro ready track; rw [ready]; exact driveStatusByte_other true track

/-- Settles O30: the value's action is the countdown's start exactly when the register and bit 6 ask for it. -/
theorem writeSpecialStartsTheDrive : Obligations.WriteSpecialStartsTheDrive := by
  intro addr data s special second
  have acted := paramAction_writeSpecial_second data s special second
  rw [← startsDrive_iff, exec_fdcParamWrite, paramWrite, acted, writeSpecial]
  refine ⟨fun starts => ?_, fun idle => ?_⟩
  · rw [if_pos starts, countParam, State.withFdc_fdc, second]; rfl
  · rw [if_neg idle, countParam, second]; rfl

/-- Settles O31: the latched index is 0, then the two parameters are stored at 0 and 1. -/
theorem readDataStoresTrackAndSector : Obligations.ReadDataStoresTrackAndSector := by
  intro addr drive track sector s
  refine ⟨exec_fdcReadData s drive, ?_⟩
  rw [execAll_cons (exec_fdcReadData s drive), execAll_cons (exec_fdcParamWrite track _ addr),
    paramWrite_stores track _ (paramAction_readData_first track _ rfl rfl),
    execAll_cons (exec_fdcParamWrite sector _ addr),
    paramWrite_stores sector _ (paramAction_readData_second sector _ rfl rfl)]
  rfl

/-- Settles O32: the third parameter's action is the start, whose window and deadline `readDataStart_inside` writes out. -/
theorem readDataStartsTheTransfer : Obligations.ReadDataStartsTheTransfer := by
  intro addr data s read third inside
  have acted := (paramAction_readData_third data s read third).trans (readDataStart_inside data s inside)
  dsimp only
  rw [exec_fdcParamWrite, paramWrite, acted, countParam]
  simp only [third]
  rfl

end

section
/-! SUPPORT. Runs of ticks: the drive's countdown (R181, R186), and the rounds of the read protocol, each a due tick and a data
read (R126, R183, R188). -/

namespace Sys2Proof.Machine

open Sys2Proof.Config

variable {s : State} {c : Cycle}

/-! ## The countdown -/

/-- Step 2 of a tick leaves the countdown and the ready mark (R182, R183). -/
theorem tickDeadline_drive :
    (tickDeadline c s).fdc.driveCountdown = s.fdc.driveCountdown ∧
      (tickDeadline c s).fdc.driveReady = s.fdc.driveReady := by
  obtain ⟨-, e⟩ | ⟨-, -, e⟩ | ⟨-, -, e⟩ := tickDeadline_cases s c <;> rw [e]
  · exact ⟨rfl, rfl⟩
  · exact ⟨rfl, rfl⟩
  · obtain ⟨b, n, transferred⟩ := tickTransfer_spec s
    rw [transferred]; exact ⟨rfl, rfl⟩

theorem tick_driveCountdown : (tick c s).fdc.driveCountdown = s.fdc.driveCountdown - 1 := by
  rw [tick, tickDeadline_drive.1, tickCountdown_eq]

theorem tick_driveReady_iff :
    (tick c s).fdc.driveReady = true ↔ s.fdc.driveReady = true ∨ s.fdc.driveCountdown = 1 := by
  rw [tick, tickDeadline_drive.2, tickCountdown_eq]
  simp

/-- From any countdown, ticks take one each from it, and mark the drive ready when they reach 0. -/
theorem execAll_fdcTick_drive (ticks : List Cycle) (s : State) :
    ∃ t, execAll (ticks.map .fdcTick) s = .next t ∧ t.fdc.driveCountdown = s.fdc.driveCountdown - ticks.length ∧
      (t.fdc.driveReady = true ↔
        s.fdc.driveReady = true ∨ (0 < s.fdc.driveCountdown ∧ s.fdc.driveCountdown ≤ ticks.length)) := by
  induction ticks generalizing s with
  | nil => exact ⟨s, rfl, rfl, by simp; omega⟩
  | cons c rest ih =>
    obtain ⟨t, run, countdown, ready⟩ := ih ((tick c s).returning .nothing)
    refine ⟨t, (execAll_cons exec_fdcTick).trans run, ?_, ready.trans ?_⟩
    · rw [countdown, State.returning_fdc, tick_driveCountdown, List.length_cons]; omega
    · rw [State.returning_fdc, tick_driveReady_iff, tick_driveCountdown, List.length_cons]
      by_cases marked : s.fdc.driveReady = true <;> simp only [marked, true_or, false_or, Bool.false_eq_true]
      omega

/-! ## The read protocol -/

/-- A due tick inside the window and the image latches the image's byte (R181, R183). -/
theorem exec_fdcTick_transfer (armed : s.fdc.deadline ≠ 0#64) (reached : s.fdc.deadline.toNat ≤ c.toNat)
    (inside : s.fdc.byteIndex < s.fdc.endIndex) (inImage : s.fdc.byteIndex < s.image.length) :
    exec (.fdcTick c) s = .next
      { s with
        fdc := { s.fdc with
          driveCountdown := s.fdc.driveCountdown - 1
          driveReady := s.fdc.driveReady || s.fdc.driveCountdown == 1
          nextByte := s.image[s.fdc.byteIndex], byteIndex := s.fdc.byteIndex + 1
          status := statusTransfer s.cfg, deadline := 0#64 }
        emitted := s.emitted ++ [.nmi]
        ret := .nothing } := by
  have due : deadlineDue c s.fdc = true := (deadlineDue_iff _ _).mpr ⟨armed, reached⟩
  have inImage' : (tickCountdown s).fdc.byteIndex < (tickCountdown s).image.length := by
    rw [tickCountdown_eq]; exact inImage
  rw [exec_fdcTick, tick_transfer due inside, tickTransfer_inside _ inImage']
  simp only [tickCountdown_eq]
  rfl

/-- The state after a round that read the byte b at the count now: the cursor is one further, one NMI was called, and the
read armed the next deadline. -/
def State.afterRound (s : State) (b : Byte) (now : Cycle) : State :=
  { s with
    fdc := { s.fdc with
      driveCountdown := s.fdc.driveCountdown - 1
      driveReady := s.fdc.driveReady || s.fdc.driveCountdown == 1
      nextByte := b, byteIndex := s.fdc.byteIndex + 1, status := statusBusy s.cfg, deadline := now + 400#64 }
    emitted := s.emitted ++ [.nmi], now := now, ret := .byte b }

/-- A round by the next states of its tick and of its data read. -/
theorem drainRounds_cons {addr : Addr} {r : Cycle × Cycle} {rest : List (Cycle × Cycle)} {t u v : State}
    {bytes : List Byte} (ticked : exec (.fdcTick r.1) s = .next t)
    (read : exec (.fdcDataRead addr) (t.withNow r.2) = .next u) (later : drainRounds addr rest u = .next (v, bytes)) :
    drainRounds addr (r :: rest) s = .next (v, u.ret.readByte ++ bytes) := by
  simp only [drainRounds, execAll, ticked, read, later]

/-- A round whose tick is due inside the window reads the image's byte at the cursor, ahead of what the later rounds read. -/
theorem drainRounds_due {addr : Addr} {r : Cycle × Cycle} {rest : List (Cycle × Cycle)} {v : State} {bytes : List Byte}
    (apart : FlagsApart s.cfg) (armed : s.fdc.deadline ≠ 0#64) (reached : s.fdc.deadline.toNat ≤ r.1.toNat)
    (domain : InDomain r.2) (inside : s.fdc.byteIndex < s.fdc.endIndex) (inImage : s.fdc.byteIndex < s.image.length)
    (later : drainRounds addr rest (s.afterRound s.image[s.fdc.byteIndex] r.2) = .next (v, bytes)) :
    drainRounds addr (r :: rest) s = .next (v, s.image[s.fdc.byteIndex] :: bytes) :=
  drainRounds_cons (exec_fdcTick_transfer armed reached inside inImage)
    (congrArg Host.Outcome.next (dataRead_latch _ apart.2.1 domain)) later

/-- At the end of the window a due tick completes, and a data read then clears the status (R182, R125). -/
theorem exec_fdcTick_then_dataRead (addr : Addr) (apart : FlagsApart s.cfg) (armed : s.fdc.deadline ≠ 0#64)
    (done : s.fdc.endIndex ≤ s.fdc.byteIndex) (reached : s.fdc.deadline.toNat ≤ c.toNat) :
    ∃ u, execAll [.fdcTick c] s = .next u ∧ u.fdc.status = statusComplete s.cfg ∧ u.emitted = s.emitted ++ [.nmi] ∧
      ∃ v, exec (.fdcDataRead addr) u = .next v ∧ v.fdc.status = 0x00 := by
  refine ⟨_, execAll_cons (exec_fdcTick_complete s armed reached done), rfl, rfl, _, exec_fdcDataRead _ addr, ?_⟩
  rw [dataRead_full _ apart.2.2]
  rfl

end Sys2Proof.Machine

open Sys2Proof Sys2Proof.Machine

/-- Settles O37: the countdown of `execAll_fdcTick_drive`, started at 200 with the mark clear. -/
theorem driveReadyAtTheTwoHundredthTick : Obligations.DriveReadyAtTheTwoHundredthTick := by
  intro s ticks started notReady
  obtain ⟨t, run, countdown, ready⟩ := execAll_fdcTick_drive ticks s
  refine ⟨t, run, started ▸ countdown, ready.trans ?_⟩
  simp [notReady, started]

/-- Settles O39: by induction on the rounds, each of which leaves a state that meets the hypotheses for the later ones. -/
theorem readProtocolYieldsTheImage : Obligations.ReadProtocolYieldsTheImage := by
  intro addr rounds s inImage apart armed spaced enough
  induction rounds generalizing s with
  | nil =>
    refine ⟨s, rfl, rfl, rfl, by simp, armed, fun exhausted c reached => ?_⟩
    have done : s.fdc.endIndex ≤ s.fdc.byteIndex := Nat.sub_eq_zero_iff_le.mp exhausted.symm
    exact exec_fdcTick_then_dataRead addr apart armed done reached
  | cons r rest ih =>
    obtain ⟨reached, domain, spaced'⟩ := spaced
    rw [List.length_cons] at enough
    have inside : s.fdc.byteIndex < s.fdc.endIndex := by omega
    have inImage' : s.fdc.byteIndex < s.image.length := by omega
    have armed' : r.2 + 400#64 ≠ 0#64 := fun zero => by
      have wraps := toNat_add_byteLatency domain
      simp [zero] at wraps
    obtain ⟨t, run, cursor, stop, calls, armedLast, last⟩ :=
      ih (s.afterRound s.image[s.fdc.byteIndex] r.2) inImage apart armed' spaced'
        (by change rest.length ≤ s.fdc.endIndex - (s.fdc.byteIndex + 1); omega)
    refine ⟨t, ?_, ?_, stop, ?_, armedLast, fun exhausted => last ?_⟩
    · rw [drainRounds_due apart armed reached domain inside inImage' run, List.drop_eq_getElem_cons inImage']
      rfl
    · rw [cursor, List.length_cons]; simp only [State.afterRound]; omega
    · rw [calls, List.length_cons, List.replicate_succ]; simp [State.afterRound]
    · rw [List.length_cons] at exhausted; simp only [State.afterRound]; omega

end

section
/-! SUPPORT. The ports of the PIA (R200 to R205): what a Port B latch cannot change, and the two overlays of Port C. -/

namespace Sys2Proof.Machine

variable (s : State)

theorem exec_piaBWrite (addr : Addr) (data : Byte) : exec (.piaBWrite addr data) s = .next (portBWrite data s) := rfl

theorem exec_piaBRead (addr : Addr) : exec (.piaBRead addr) s = .next (portBRead s) := rfl

/-- A Port B read overwrites the latch that a write stored (R202, R203). -/
theorem portBRead_portBWrite (data : Byte) : portBRead (portBWrite data s) = portBRead s := by
  have scan := scanColumn_withPia s { s.pia with portB := data } (columnOf s.cfg s.pia.portA)
  exact congrArg (fun v => (s.withPia { s.pia with portB := v }).returning (.byte v)) scan

/-- The state with another Port B latch. -/
def State.withPortB (s : State) (data : Byte) : State := s.withPia { s.pia with portB := data }

/-- A data read returns the FDC's latch or a draw, whatever the PIA holds. -/
theorem dataRead_ret_withPortB (data : Byte) : (dataRead (s.withPortB data)).ret = (dataRead s).ret := by
  have same : resultFull (s.withPortB data).cfg (s.withPortB data).fdc.status = resultFull s.cfg s.fdc.status := rfl
  unfold dataRead
  rw [same]
  split <;> rfl

/-- No bus read returns another value for another Port B latch. -/
theorem busRead_ret_withPortB (addr : Addr) (data : Byte) :
    (busRead addr (s.withPortB data)).ret = (busRead addr s).ret := by
  have same : target (s.withPortB data).cfg addr = target s.cfg addr := rfl
  unfold busRead
  rw [same]
  cases target s.cfg addr with
  | fdc port =>
    cases port with
    | data => exact dataRead_ret_withPortB s data
    | _ => rfl
  | pia port =>
    cases port with
    | portB => exact congrArg Ret.byte (scanColumn_withPia s { s.pia with portB := data } _)
    | _ => rfl
  | _ => rfl

theorem portBWrite_eq (data : Byte) : portBWrite data s = (s.withPortB data).returning .nothing := rfl

end Sys2Proof.Machine

open Sys2Proof Sys2Proof.Machine

/-- Settles O41: each row is one update of its latch or of the returned value. -/
theorem portLatchesAreStored : Obligations.PortLatchesAreStored :=
  fun _ _ _ => ⟨rfl, rfl, rfl⟩

/-- Settles O42: both rows take the scan of the column that Port A selects. -/
theorem portBReadStoresTheScan : Obligations.PortBReadStoresTheScan :=
  fun _ s => ⟨scanColumn s (columnOf s.cfg s.pia.portA), rfl, rfl⟩

/-- Settles O43: the next read overwrites the latch, and no bus read returns anything that depends on it. -/
theorem portBWriteIsUnobservable : Obligations.PortBWriteIsUnobservable := by
  intro addr addr' data s
  refine ⟨exec_piaBWrite s addr data, ?_, _, _, execAll_cons (exec_piaBWrite s addr data), exec_fetch, ?_⟩
  · rw [execAll_cons (exec_piaBWrite s addr data), execAll_cons (exec_piaBRead _ addr'), portBRead_portBWrite]
    rfl
  · rw [portBWrite_eq, busRead_returning, busRead_ret_withPortB]

/-- Settles O44: the bits of `portCValue`, each overlay low exactly where its test is true. -/
theorem portCReadOverlays : Obligations.PortCReadOverlays := by
  refine fun addr s => ⟨portCValue s, rfl, portCValue_low s, ?_, ?_⟩
  · rw [portCValue_repeat, Bool.not_eq_false']
    exact held_iff s .repeatKey
  · rw [portCValue_sync, Bool.not_eq_false', fieldSync_iff]

end

section
/-! SUPPORT. The keyboard: the codes of the key channel (R87, R224) and the queue drained in order (R225). -/

namespace Sys2Proof.Machine

open Sys2Proof.Config

variable {p : Params} {code : Int}

/-! ## Codes -/

theorem keyEventOf_press {k : Fin 61} (h : (k.val : Int) = code) : keyEventOf p code = some ⟨k, false⟩ := by
  subst h
  have range : ((k.val : Int)).toNat < 61 ∧ (0 : Int) ≤ k.val := ⟨by omega, by omega⟩
  rw [keyEventOf, dif_pos range]
  rfl

theorem keyEventOf_release {k : Fin 61} (above : keyCount ≤ p.releaseOffset)
    (h : (k.val : Int) + p.releaseOffset = code) : keyEventOf p code = some ⟨k, true⟩ := by
  subst h
  have noPress : ¬ (((k.val : Int) + p.releaseOffset).toNat < 61 ∧ (0 : Int) ≤ k.val + p.releaseOffset) := by
    simp only [keyCount] at above; omega
  have difference : ((k.val : Int) + p.releaseOffset - p.releaseOffset).toNat = k.val := by omega
  have range : ((k.val : Int) + p.releaseOffset - p.releaseOffset).toNat < 61 ∧
      (p.releaseOffset : Int) ≤ k.val + p.releaseOffset := ⟨by omega, by omega⟩
  rw [keyEventOf, dif_neg noPress, dif_pos range]
  simp only [difference]

theorem keyEventOf_none
    (h : code < 0 ∨ (61 ≤ code ∧ code < p.releaseOffset) ∨ (p.releaseOffset : Int) + 61 ≤ code) :
    keyEventOf p code = none := by
  have noPress : ¬ (code.toNat < 61 ∧ 0 ≤ code) := by omega
  have noRelease : ¬ ((code - p.releaseOffset).toNat < 61 ∧ (p.releaseOffset : Int) ≤ code) := by omega
  rw [keyEventOf, dif_neg noPress, dif_neg noRelease]

variable {s : State}

theorem sendEvent_room {e : KeyEvent} (h : keyEventOf s.cfg code = some e) (room : s.kbd.queue.length < s.cfg.queueCap) :
    sendEvent code s = s.withKbd { s.kbd with queue := s.kbd.queue ++ [e] } := by
  rw [sendEvent, h]
  exact if_neg (not_le.mpr room)

theorem sendEvent_none (h : keyEventOf s.cfg code = none) : sendEvent code s = s := by
  rw [sendEvent, h]

theorem sendEvent_full (full : s.cfg.queueCap ≤ s.kbd.queue.length) : sendEvent code s = s := by
  rw [sendEvent]
  split
  · rfl
  · exact if_pos full

theorem exec_keyEvent : exec (.keyEvent code) s = .next ((sendEvent code s).returning .nothing) := rfl

/-! ## The drain -/

theorem applyEvent_getElem (pressed : Vector Bool 61) (e : KeyEvent) (k : Fin 61) :
    (applyEvent pressed e)[k] = if e.key = k then !e.released else pressed[k] := by
  simp only [applyEvent, Fin.getElem_fin, Vector.getElem_set, Fin.val_inj]

/-- After the events of a queue, oldest first, a key is as its last event says (D23). -/
theorem foldl_applyEvent_getElem (queue : List KeyEvent) (pressed : Vector Bool 61) (k : Fin 61) :
    (queue.foldl applyEvent pressed)[k] =
      (queue.filter fun e => e.key = k).getLast?.elim pressed[k] fun e => !e.released := by
  induction queue using List.reverseRecOn with
  | nil => rfl
  | append_singleton queue e ih =>
    rw [List.foldl_concat, applyEvent_getElem, List.filter_append]
    by_cases own : e.key = k
    · simp [own]
    · simp [own, ih]

end Sys2Proof.Machine

open Sys2Proof Sys2Proof.Machine Sys2Proof.Config

/-- Settles O45: the two ranges of codes are apart because the release offset is at least 61. -/
theorem keyEventsAreQueuedOrDropped : Obligations.KeyEventsAreQueuedOrDropped := by
  intro code s above
  simp only [exec_keyEvent]
  refine ⟨fun k press room => ?_, fun k release room => ?_, fun out => ?_, fun full => ?_⟩
  · rw [sendEvent_room (keyEventOf_press press) room]; rfl
  · rw [sendEvent_room (keyEventOf_release above release) room]; rfl
  · rw [sendEvent_none (keyEventOf_none out)]; rfl
  · rw [sendEvent_full full]; rfl

/-- Settles O46: the drain applies the queue from its oldest event, so the last event of each key stands. -/
theorem drainAppliesTheLastEvent : Obligations.DrainAppliesTheLastEvent := by
  refine fun s => ⟨s.kbd.queue.foldl applyEvent s.kbd.pressed, rfl, fun k => ?_⟩
  rw [foldl_applyEvent_getElem]
  cases (s.kbd.queue.filter fun e => e.key = k).getLast? <;> rfl

/-- Settles O47: the bits of the scan byte, each low exactly where its test is true. -/
theorem scanReportsHeldKeys : Obligations.ScanReportsHeldKeys := by
  refine fun col s => ⟨scanColumn s col, rfl, fun row => ?_, ?_, ?_⟩
  · rw [scanColumn_row, Bool.not_eq_false', cellHeld_iff]
  · rw [scanColumn_ctrl, Bool.not_eq_false', held_iff]
  · rw [scanColumn_shift, Bool.not_eq_false', held_iff]

/-- Settles O48: both queries are the held test of their role. -/
theorem breakAndRepeatQueries : Obligations.BreakAndRepeatQueries :=
  fun s => ⟨resetRequested s, repeatHeld s, rfl, rfl, held_iff s .breakKey, held_iff s .repeatKey⟩

end

section
/-! SUPPORT. The video generator: field sync (R240), the raster's pixels (R250, R251), the text path (R252 to R254) and the
graphics path (R255, R256). -/

namespace Sys2Proof.Machine

open Sys2Proof.Config

/-! ## The raster -/

theorem exec_vduFieldsync (c : Cycle) (s : State) :
    exec (.vduFieldsync c) s = .next { s with ret := .flag (fieldSync s.cfg c) } := rfl

theorem exec_vduSnapshot (s : State) :
    exec .vduSnapshot s = .next { s with ret := .raster (snapshot s.cfg s.ram s.pia.portA) } := rfl

/-- Field sync is the same one frame later, while the sum stays in u64. -/
theorem fieldSync_add_frame (p : Params) {c : Cycle} (h : c.toNat + p.frameCycles < 2 ^ 64) :
    fieldSync p (c + BitVec.ofNat 64 p.frameCycles) = fieldSync p c := by
  have sum : (c + BitVec.ofNat 64 p.frameCycles).toNat = c.toNat + p.frameCycles := by
    rw [BitVec.toNat_add, BitVec.toNat_ofNat, Nat.add_mod_mod, Nat.mod_eq_of_lt h]
  rw [fieldSync, sum, Nat.add_mod_right, fieldSync]

variable (p : Params) (ram : Memory) (portA : Byte) {x y : Nat}

theorem snapshot_length : (snapshot p ram portA).length = 192 := by
  rw [snapshot, List.length_map, List.length_range]

theorem length_of_mem_snapshot {row : List Rgba} (h : row ∈ snapshot p ram portA) : row.length = 256 := by
  obtain ⟨y, -, rfl⟩ := List.mem_map.mp h
  rw [List.length_map, List.length_range]

/-- The pixel of a column and a line (R250). -/
theorem snapshot_getElem (hx : x < 256) (hy : y < 192) :
    ((snapshot p ram portA)[y]?.bind fun row => row[x]?) = some (pixel p ram portA x y) := by
  simp [snapshot, hx, hy]

/-- The path that Port A's bit 4 selects (R251). -/
theorem pixel_eq (x y : Nat) :
    pixel p ram portA x y =
      if portA &&& 0x10#8 = 0#8 then textPixel p ram x y
      else graphicsPixel p ram (graphicsMode (portA.extractLsb' 5 3)) x y := by
  by_cases text : portA &&& 0x10#8 = 0#8
  · rw [pixel, if_neg (by rw [graphicsSelected_iff]; exact not_not_intro text), if_pos text]
  · rw [pixel, if_pos ((graphicsSelected_iff _).mpr text), if_neg text]; rfl

/-! ## What a raster reads -/

variable {p ram}

/-- RAMs that agree on a pixel's text cell and graphics byte give it one colour. -/
theorem pixel_congr {m : Memory} (text : m.read (textAddress p x y) = ram.read (textAddress p x y))
    (graphics : ∀ mode : BitVec 3, m.read (graphicsAddress p (graphicsMode mode) x y) =
      ram.read (graphicsAddress p (graphicsMode mode) x y)) :
    pixel p m portA x y = pixel p ram portA x y := by
  simp only [pixel, textPixel, graphicsPixel, text, graphics]

/-- RAMs that agree on the 6,144 bytes from VIDEO_BASE give one raster (R257). -/
theorem snapshot_congr {m : Memory}
    (agree : ∀ a, p.videoBase ≤ a → a < p.videoBase + 6144 → m.read a = ram.read a) :
    snapshot p m portA = snapshot p ram portA := by
  refine List.map_congr_left fun y hy => List.map_congr_left fun x hx => ?_
  have hy : y < 192 := List.mem_range.mp hy
  have hx : x < 256 := List.mem_range.mp hx
  refine pixel_congr portA ?_ fun mode => ?_
  · obtain ⟨lo, hi⟩ := textAddress_inside p hx hy
    exact agree _ lo (by omega)
  · obtain ⟨lo, hi⟩ := graphicsAddress_inside p mode hx hy
    exact agree _ lo hi

/-! ## Text -/

/-- A glyph pixel is light iff its pattern's bit differs from the inverse bit; a line without a font row is blank (R253). -/
theorem glyphPixel_eq (p : Params) (ch : Byte) (line : Fin 12) (px : Nat) :
    glyphPixel p ch line px =
      if (p.fontRow[line].elim false fun r =>
          ((p.font[ch.toNat % 64]'(Nat.mod_lt _ (by decide)))[r]).getLsbD (7 - px)) ^^ ch.getLsbD 7
      then p.textLight else p.textDark := by
  unfold glyphPixel glyphPattern
  cases p.fontRow[line] with
  | none => simp
  | some r => simp

theorem getLsbD_six_flip (ch : Byte) : (ch ^^^ 0x80#8).getLsbD 6 = ch.getLsbD 6 := by
  rw [BitVec.getLsbD_xor]; exact Bool.xor_false _

theorem getLsbD_seven_flip (ch : Byte) : (ch ^^^ 0x80#8).getLsbD 7 = !ch.getLsbD 7 := by
  rw [BitVec.getLsbD_xor]; exact Bool.xor_true _

/-- The glyph of a character does not depend on its inverse bit. -/
theorem glyphPattern_flip (p : Params) (ch : Byte) (line : Fin 12) :
    glyphPattern p (ch ^^^ 0x80#8) line = glyphPattern p ch line := by
  have code : (ch ^^^ 0x80#8).setWidth 6 = ch.setWidth 6 := by
    rw [BitVec.setWidth_xor]; exact BitVec.xor_zero
  simp only [glyphPattern, code]

/-- Flipping the inverse bit of a glyph character exchanges light and dark (R253). -/
theorem glyphPixel_flip (p : Params) (ch : Byte) (line : Fin 12) (px : Nat) :
    ∃ b : Bool, glyphPixel p ch line px = (if b then p.textLight else p.textDark) ∧
      glyphPixel p (ch ^^^ 0x80#8) line px = (if b then p.textDark else p.textLight) := by
  refine ⟨(glyphPattern p ch line).getLsbD (7 - px) ^^ ch.getLsbD 7, rfl, ?_⟩
  rw [glyphPixel, glyphPattern_flip, getLsbD_seven_flip, Bool.xor_not]
  cases (glyphPattern p ch line).getLsbD (7 - px) ^^ ch.getLsbD 7 <;> rfl

theorem textPixel_glyph {x y : Nat} (glyph : (ram.read (textAddress p x y)).getLsbD 6 = false) :
    textPixel p ram x y =
      glyphPixel p (ram.read (textAddress p x y)) ⟨y % cellH, Nat.mod_lt _ (by decide)⟩ (x % cellW) := by
  simp only [textPixel, glyph, Bool.false_eq_true, if_false]

theorem textPixel_semigraphics {x y : Nat} (block : (ram.read (textAddress p x y)).getLsbD 6 = true) :
    textPixel p ram x y = semigraphicsPixel p (ram.read (textAddress p x y)) (y % cellH) (x % cellW) := by
  simp only [textPixel, block, if_true]

/-- The block bit of a cell line and a pixel column (R254). -/
theorem semigraphicsOn_eq (ch : Byte) {line px : Nat} (hl : line < 12) :
    semigraphicsOn ch line px = ch.getLsbD (2 * (2 - line / 4) + if px < 4 then 1 else 0) := by
  unfold semigraphicsOn
  have bound : 2 * (2 - line / 4) < 6 := by omega
  generalize 2 * (2 - line / 4) = n at bound ⊢
  split <;> simp

/-! ## Graphics -/

/-- The table of submodes (R255), each of one or two bits a pixel. -/
theorem graphicsMode_of_mem {m : BitVec 3} {cols lines bpp : Nat}
    (row : (m.toNat, cols, lines, bpp) ∈ [(0, 64, 64, 2), (1, 128, 64, 1), (2, 128, 64, 2), (3, 128, 96, 1),
      (4, 128, 96, 2), (5, 128, 192, 1), (6, 128, 192, 2), (7, 256, 192, 1)]) :
    graphicsMode m = ⟨cols, lines, bpp⟩ ∧ (bpp = 1 ∨ bpp = 2) := by
  simp only [List.mem_cons, Prod.mk.injEq, List.not_mem_nil, or_false] at row
  rcases row with ⟨hm, rfl, rfl, rfl⟩ | ⟨hm, rfl, rfl, rfl⟩ | ⟨hm, rfl, rfl, rfl⟩ | ⟨hm, rfl, rfl, rfl⟩ |
    ⟨hm, rfl, rfl, rfl⟩ | ⟨hm, rfl, rfl, rfl⟩ | ⟨hm, rfl, rfl, rfl⟩ | ⟨hm, rfl, rfl, rfl⟩ <;>
    simp [graphicsMode, hm]

/-- The number that a palette of n bits takes from a byte's shifted pixel bits (R256). -/
theorem pixelBits_setWidth_toNat (g : GraphicsMode) (b : Byte) (k n : Nat) :
    ((pixelBits g b k).setWidth n).toNat = b.toNat / 2 ^ (8 - g.bpp * (k + 1)) % 2 ^ n := by
  rw [BitVec.toNat_setWidth, pixelBits, BitVec.toNat_ushiftRight, Nat.shiftRight_eq_div_pow]

/-- The pixel is the palette's entry at that number. -/
theorem graphicsPixel_getElem? (p : Params) (ram : Memory) (x y : Nat) {cols lines bpp : Nat} (depth : bpp = 1 ∨ bpp = 2) :
    let lx := x / (256 / cols)
    let ly := y / (192 / lines)
    let ppb := 8 / bpp
    let b := (ram.read (p.videoBase + ly * (cols / ppb) + lx / ppb)).toNat
    let v := b / 2 ^ (8 - bpp * (lx % ppb + 1)) % 2 ^ bpp
    some (graphicsPixel p ram ⟨cols, lines, bpp⟩ x y) = if bpp = 1 then p.palette2[v]? else p.palette4[v]? := by
  intro lx ly ppb b v
  let g : GraphicsMode := ⟨cols, lines, bpp⟩
  let bits := pixelBits g (ram.read (graphicsAddress p g x y)) (logicalX g x % pixelsPerByte g)
  have number : (bits.setWidth bpp).toNat = v := pixelBits_setWidth_toNat g _ _ bpp
  obtain rfl | rfl := depth
  · rw [if_pos rfl, ← number]
    exact (Vector.getElem?_eq_getElem (bits.setWidth 1).toFin.isLt).symm
  · rw [if_neg (by decide), ← number]
    exact (Vector.getElem?_eq_getElem (bits.setWidth 2).toFin.isLt).symm

/-- Two tones: the palette's entry by the lowest bit. -/
theorem setWidth_one_toFin (b : Byte) : (b.setWidth 1).toFin = if b.getLsbD 0 then (1 : Fin 2) else 0 := by
  rw [Fin.ext_iff]
  change b.toNat % 2 = _
  rw [BitVec.getLsbD, Nat.testBit_zero]
  rcases Nat.mod_two_eq_zero_or_one b.toNat with h | h <;> simp [h]

theorem graphicsPixel_seven (p : Params) (ram : Memory) (x y : Nat) :
    graphicsPixel p ram (graphicsMode 7) x y =
      if (ram.read (p.videoBase + y * 32 + x / 8)).getLsbD (7 - x % 8) then p.palette2[1] else p.palette2[0] := by
  have address : graphicsAddress p (graphicsMode 7) x y = p.videoBase + y * 32 + x / 8 := by
    change p.videoBase + y / 1 * 32 + x / 1 / 8 = _
    rw [Nat.div_one, Nat.div_one]
  have bit (b : Byte) : (pixelBits (graphicsMode 7) b (x / 1 % 8)).getLsbD 0 = b.getLsbD (7 - x % 8) := by
    change (b >>> (8 - 1 * (x / 1 % 8 + 1))).getLsbD 0 = _
    rw [BitVec.getLsbD_ushiftRight]
    congr 1; omega
  change p.palette2[((pixelBits (graphicsMode 7) (ram.read (graphicsAddress p (graphicsMode 7) x y))
    (x / 1 % 8)).setWidth 1).toFin] = _
  simp only [setWidth_one_toFin, bit, address]
  split <;> rfl

theorem graphicsPixel_zero (p : Params) (ram : Memory) (x y : Nat) :
    graphicsPixel p ram (graphicsMode 0) x y =
      p.palette4[(((ram.read (p.videoBase + y / 3 * 16 + x / 16)) >>> (6 - 2 * (x / 4 % 4))).setWidth 2).toFin] := by
  have address : graphicsAddress p (graphicsMode 0) x y = p.videoBase + y / 3 * 16 + x / 16 := by
    change p.videoBase + y / 3 * 16 + x / 4 / 4 = _
    rw [Nat.div_div_eq_div_mul]
  have bits (b : Byte) : pixelBits (graphicsMode 0) b (x / 4 % 4) = b >>> (6 - 2 * (x / 4 % 4)) := by
    change b >>> (8 - 2 * (x / 4 % 4 + 1)) = _
    congr 1; omega
  change p.palette4[((pixelBits (graphicsMode 0) (ram.read (graphicsAddress p (graphicsMode 0) x y))
    (x / 4 % 4)).setWidth 2).toFin] = _
  simp only [bits, address]

end Sys2Proof.Machine

open Sys2Proof Sys2Proof.Machine Sys2Proof.Config

/-- Settles O50: the flag is the comparison of the count modulo the frame. -/
theorem fieldSyncIsPeriodic : Obligations.FieldSyncIsPeriodic := by
  refine fun c s => ⟨fieldSync s.cfg c, exec_vduFieldsync c s, fieldSync_iff _ _, fun next => ?_, rfl, rfl⟩
  rw [exec_vduFieldsync, fieldSync_add_frame _ next]

/-- Settles O51: the raster is the pixel function over its lines and columns. -/
theorem snapshotIsTheWholeRaster : Obligations.SnapshotIsTheWholeRaster := by
  refine fun s => ⟨snapshot s.cfg s.ram s.pia.portA, exec_vduSnapshot s, snapshot_length _ _ _,
    fun row => length_of_mem_snapshot _ _ _, fun x y hx hy => ?_⟩
  rw [snapshot_getElem _ _ _ hx hy, pixel_eq]
  rfl

/-- Settles O52: every pixel's address, on either path, is one of the 6,144. -/
theorem rasterReadsOnlyVideoRam : Obligations.RasterReadsOnlyVideoRam := by
  refine fun s m agree => ⟨_, exec_vduSnapshot s, ?_⟩
  rw [exec_vduSnapshot]
  exact congrArg (fun rows => Host.Outcome.next { s with ram := m, ret := .raster rows }) (snapshot_congr _ agree)

/-- Settles O53: the text path's two cases, and a glyph's pixel with bit 7 flipped as the XOR with the other value. -/
theorem inverseIsTheComplement : Obligations.InverseIsTheComplement := by
  refine ⟨fun p m x y line hx hy hl => ?_, fun p m m' x y glyph flipped => ?_⟩
  · have address : textAddress p x y = p.videoBase + y / 12 * 32 + x / 8 := rfl
    have onLine : (⟨y % cellH, Nat.mod_lt _ (by decide)⟩ : Fin 12) = line := Fin.ext hl.symm
    refine ⟨fun block => ?_, fun glyph => ?_⟩
    · exact textPixel_semigraphics (address ▸ block)
    · rw [textPixel_glyph (address ▸ glyph), onLine, glyphPixel_eq, address]
      cases p.fontRow[line] <;> rfl
  · have glyph' : (m'.read (textAddress p x y)).getLsbD 6 = false := by rw [flipped]; exact (getLsbD_six_flip _).trans glyph
    rw [textPixel_glyph glyph, textPixel_glyph glyph', flipped]
    exact glyphPixel_flip p _ _ _

/-- Settles O54: the table gives each submode's form, and the formula's number is the one the palette takes; modes 7 and 0
are two forms of it. -/
theorem graphicsPixelsOfModesSevenAndZero : Obligations.GraphicsPixelsOfModesSevenAndZero := by
  intro p ram x y hx hy
  refine ⟨fun m cols lines bpp row => ?_, graphicsPixel_seven p ram x y, graphicsPixel_zero p ram x y⟩
  obtain ⟨mode, depth⟩ := graphicsMode_of_mem row
  rw [mode]
  exact graphicsPixel_getElem? p ram x y depth

/-- Settles O55: the block bit, for the half and the third of the cell. -/
theorem semigraphicsBlocks : Obligations.SemigraphicsBlocks := by
  intro p ch line px hl hp
  rw [semigraphicsPixel, semigraphicsOn_eq ch hl]
  rfl

end

section
/-! SUPPORT. The scheduler: the Break check by Break and its sample (R272), the sub-steps of an iteration in order (R270), and
one CPU instruction by its accesses (R274). -/

namespace Sys2Proof.Machine

variable {s : State}

/-! ## Break check -/

theorem resetRequested_iff (s : State) :
    resetRequested s = true ↔ ∃ k : Fin 61, s.cfg.keymap[k] = .breakKey ∧ s.kbd.pressed[k] = true :=
  held_iff s .breakKey

theorem exec_schedBreakCheck (s : State) : exec .schedBreakCheck s = .next ((breakCheck s).returning .nothing) := rfl

/-- The rising edge of Break resets (R272, R331). -/
theorem breakCheck_edge (held : resetRequested s = true) (prev : s.sched.breakPrev = false) :
    breakCheck s =
      { s with
        fdc := Fdc.reset, pia := Pia.reset, emitted := s.emitted ++ [.cpuReset], countFloor := 0
        sched := { s.sched with breakPrev := true } } := by
  rw [breakCheck_spec, held, prev]; rfl

/-- Break that is still held changes nothing. -/
theorem breakCheck_still (held : resetRequested s = true) (prev : s.sched.breakPrev = true) : breakCheck s = s := by
  have same : ({ s.sched with breakPrev := resetRequested s } : Sched) = s.sched := by rw [held, ← prev]
  rw [breakCheck_spec, if_neg (by simp [prev])]
  exact congrArg s.withSched same

/-- Without Break the sample is cleared. -/
theorem breakCheck_released (released : resetRequested s = false) :
    breakCheck s = { s with sched := { s.sched with breakPrev := false } } := by
  rw [breakCheck_spec, released]; rfl

/-- Break held through any number of checks after its edge makes no call. -/
theorem execAll_breakCheck_still (n : Nat) (held : resetRequested s = true) (prev : s.sched.breakPrev = true) :
    ∃ t, execAll (List.replicate n .schedBreakCheck) s = .next t ∧ t.emitted = s.emitted := by
  induction n generalizing s with
  | zero => exact ⟨s, rfl, rfl⟩
  | succ n ih =>
    have still := exec_schedBreakCheck s
    rw [breakCheck_still held prev] at still
    obtain ⟨t, run, silent⟩ := ih (s := s.returning .nothing) held prev
    exact ⟨t, (execAll_cons still).trans run, silent⟩

/-! ## The iteration's sub-steps -/

theorem exec_schedDrain (s : State) : exec .schedDrain s = .next ((drainEvents s).returning .nothing) := rfl

theorem exec_schedTick (s : State) : exec .schedTick s = .next ((tick s.now s).returning .nothing) := rfl

theorem exec_schedExecute (s : State) : exec .schedExecute s = .next (executeInstr s) := rfl

theorem drainEvents_now (s : State) : (drainEvents s).now = s.now := rfl

/-- Drain, tick and Break check, ahead of any other operations. -/
theorem execAll_drain_tick_breakCheck (rest : List Instr) (s : State) :
    execAll (.schedDrain :: .schedTick :: .schedBreakCheck :: rest) s =
      execAll rest ((breakCheck (tick s.now (drainEvents s))).returning .nothing) := by
  rw [execAll_cons (exec_schedDrain s), execAll_cons (exec_schedTick _), execAll_cons (exec_schedBreakCheck _),
    tick_returning, breakCheck_returning, breakCheck_returning]
  simp only [returning_returning, State.returning_now, drainEvents_now]

/-- With Break held after the drain, its sample false and a deadline due, the tick and the Break check call the NMI and then
the CPU reset, and leave the FDC reset (R307). -/
theorem breakCheck_tick_drain (held : resetRequested (drainEvents s) = true) (prev : s.sched.breakPrev = false)
    (due : deadlineDue s.now s.fdc = true) :
    (breakCheck (tick s.now (drainEvents s))).emitted = s.emitted ++ [.nmi, .cpuReset] ∧
      (breakCheck (tick s.now (drainEvents s))).fdc = Fdc.reset := by
  have called : (tick s.now (drainEvents s)).emitted = s.emitted ++ [.nmi] := tick_emitted.trans (if_pos due)
  have held' : resetRequested (tick s.now (drainEvents s)) = true := by
    rw [resetRequested_iff, tick_kbd, (tick_loadFrame _ _).cfg]
    exact (resetRequested_iff _).mp held
  have prev' : (tick s.now (drainEvents s)).sched.breakPrev = false := by rw [tick_sched]; exact prev
  rw [breakCheck_edge held' prev']
  exact ⟨by simp [called], rfl⟩

/-! ## One CPU instruction -/

theorem nextInstr_cons {i : CpuInstr} {rest : List CpuInstr} (h : s.cpu = i :: rest) :
    nextInstr s = (i, { s with cpu := rest }) := by
  rw [nextInstr, h]

theorem nextInstr_nil (h : s.cpu = []) : nextInstr s = (Config.freeInstr s.draws, s.drawn) := by
  rw [nextInstr, h]

/-- The instruction's accesses, then its count and the bytes its reads returned (R274). -/
theorem executeInstr_eq {i : CpuInstr} {t : State} (h : nextInstr s = (i, t)) :
    executeInstr s = ((runAccesses i.accesses t).1.atCount i.cycles).returning (.bytes (runAccesses i.accesses t).2) := by
  rw [executeInstr, h]

theorem busAccess_cpu (a : BusAccess) (s : State) : (busAccess a s).cpu = s.cpu := by
  unfold busAccess
  cases a.dir with
  | read => exact (busRead_frame _ _).cpu
  | write => exact (busWrite_frame _ _ _).cpu
  | fetch => exact (busRead_frame _ _).cpu

theorem withCpu_self {rest : List CpuInstr} (h : s.cpu = rest) : { s with cpu := rest } = s := by
  subst h; rfl

/-- With no instruction supplied a CPU instruction is some supplied one, at the cost of a draw (log 6). -/
theorem executeInstr_free (h : s.cpu = []) :
    executeInstr s = executeInstr { s with cpu := [Config.freeInstr s.draws], draws := s.draws + 1 } := by
  have drawn : { s.drawn with cpu := [] } = s.drawn := withCpu_self h
  rw [executeInstr_eq (nextInstr_nil h), executeInstr_eq (nextInstr_cons rfl)]
  change _ = ((runAccesses _ { s.drawn with cpu := [] }).1.atCount _).returning
    (.bytes (runAccesses _ { s.drawn with cpu := [] }).2)
  rw [drawn]

end Sys2Proof.Machine

open Sys2Proof Sys2Proof.Machine

/-- Settles O56: no sub-step reads the value the one before it returned, and pacing keeps the rest of the state. -/
theorem iterationRunsInOrder : Obligations.IterationRunsInOrder := by
  intro s
  obtain ⟨pc, w, n, paced, -⟩ := paceStep_spec (executeInstr (breakCheck (tick s.now (drainEvents s))))
  refine ⟨rfl, iteration s, executeInstr (breakCheck (tick s.now (drainEvents s))), ?_, rfl, ?_⟩
  · rw [execAll_drain_tick_breakCheck, execAll_cons (exec_schedExecute _), executeInstr_returning]
    rfl
  · have ended : iteration s = _ := paced
    rw [ended]

/-- Settles O57: the three cases of Break and its sample. -/
theorem breakEdgeResets : Obligations.BreakEdgeResets := by
  intro s
  rw [← resetRequested_iff, exec_schedBreakCheck]
  refine ⟨fun ⟨held, prev⟩ => ?_, fun ⟨held, prev⟩ => ?_, fun released => ?_⟩
  · rw [breakCheck_edge held prev]; rfl
  · rw [breakCheck_still held prev]; rfl
  · rw [breakCheck_released (Bool.eq_false_iff.mpr released)]; rfl

/-- Settles O58: the first check is the edge, and after it Break is still held. -/
theorem heldBreakResetsOnce : Obligations.HeldBreakResetsOnce := by
  intro s n pressed prev
  have held := (resetRequested_iff s).mpr pressed
  have edge := breakCheck_edge held prev
  have held' : resetRequested ((breakCheck s).returning .nothing) = true := by rw [edge]; exact held
  have prev' : ((breakCheck s).returning .nothing).sched.breakPrev = true := by rw [edge]; rfl
  obtain ⟨t, run, silent⟩ := execAll_breakCheck_still n held' prev'
  refine ⟨t, (execAll_cons (exec_schedBreakCheck s)).trans run, silent.trans ?_⟩
  rw [edge]
  rfl

/-- Settles O59: the tick comes before the Break check, and what follows them in the iteration makes no call. -/
theorem nmiComesBeforeReset : Obligations.NmiComesBeforeReset := by
  intro s u drained pressed prev armed reached
  have held : resetRequested (drainEvents s) = true := by
    rw [resetRequested_iff]
    cases drained
    exact pressed
  obtain ⟨calls, reset⟩ := breakCheck_tick_drain held prev ((deadlineDue_iff _ _).mpr ⟨armed, reached⟩)
  exact ⟨⟨_, execAll_drain_tick_breakCheck [] s, calls, reset⟩, iteration s, rfl, (iteration_tail s).emitted.trans calls⟩

/-- Settles O60: the first access is its own bus row, and what is left is the instruction of the other accesses. -/
theorem executePerformsTheAccesses : Obligations.ExecutePerformsTheAccesses := by
  refine ⟨fun s c rest supplied => ?_, fun s a as c rest supplied => ?_, fun s none => ?_⟩
  · rw [exec_schedExecute, executeInstr_eq (nextInstr_cons supplied)]; rfl
  · let u := busAccess a { s with cpu := rest }
    have taken : nextInstr { u with cpu := ⟨as, c⟩ :: rest } = (⟨as, c⟩, u) := by
      rw [nextInstr_cons rfl]
      exact congrArg _ (withCpu_self (busAccess_cpu a _))
    have ⟨same, rising⟩ := busAccess_countFrame a { s with cpu := rest }
    refine ⟨u, (runAccesses as u).1.atCount c, (runAccesses as u).2, exec_busRow { s with cpu := rest } a, ?_, ?_,
      same ▸ rising, ?_⟩
    · rw [exec_schedExecute, executeInstr_eq taken]; rfl
    · rw [exec_schedExecute, executeInstr_eq (nextInstr_cons supplied)]; rfl
    · calc u.now.toNat = u.countFloor.toNat := congrArg BitVec.toNat same.symm
        _ ≤ (runAccesses as u).1.countFloor.toNat := runAccesses_floor as u
        _ ≤ ((runAccesses as u).1.atCount c).now.toNat := laterCount_left _ _
  · exact ⟨_, congrArg Host.Outcome.next (executeInstr_free none)⟩

end
